-- ==== Sys2Proof/Config.lean ====
section
/-!
DEFINITION. What an instance of the block fixes when it is built (00_scope.md R5 to R8), and the values
the spec leaves open, as constants with no body.

The block, its request layer, its host interface and the host beside it are written for EVERY instance; the
reference instance is only what `Machine.State` and `exec` are built on.
-/

namespace Sys2Proof.Config

/-- The implementation parameters, within their constraints (the parameter table of R8). The count field of
32 bits and the request width of 64 are the same for every instance (R6, R7) and stand in Word.lean. -/
structure Params where
  /-- `W`, bits per word (R5). -/
  W : Nat
  /-- `NBUF`, the number of caller buffers (R7). -/
  NBUF : Nat
  /-- `W ≥ 2` (R5, D3): no instance has shorter words. -/
  two_le_W : 2 ≤ W
  /-- `1 ≤ NBUF` (R7). -/
  one_le_NBUF : 1 ≤ NBUF
  /-- `NBUF ≤ 256` (R7). -/
  NBUF_le : NBUF ≤ 256
  deriving DecidableEq, Repr

/-- The constraint on `W`, as the units that need it ask for it. -/
theorem Params.atLeastTwo (C : Params) : C.W.AtLeastTwo := ⟨C.two_le_W⟩

/-- The reference instance: 32-bit words and 16 buffers (R5, R7; D3, D5; log entry 1). -/
abbrev reference : Params :=
  { W := 32, NBUF := 16, two_le_W := by decide, one_le_NBUF := by decide, NBUF_le := by decide }

/-- `W` of the reference instance. -/
abbrev W : Nat := reference.W

/-- `NBUF` of the reference instance. -/
abbrev NBUF : Nat := reference.NBUF

/-- The parameter `LATENCY`: open, and read by no rule (D2, U8; log entry 2). -/
opaque latency : Nat

/-- What the port `Y` carries under an operation that does not define it (R73, D23, U7; log entry 3).
The second argument numbers the observation, so that two observations need not agree. -/
opaque portY (W : Nat) (observation : Nat) : BitVec W

/-- What the port `Y2` carries under an operation that does not define it (R73, D23, U7; log entry 3). -/
opaque portY2 (W : Nat) (observation : Nat) : BitVec W

/-- What the port `PRED` carries under an operation that does not define it (R73, D23, U7; log entry 3). -/
opaque portPred (observation : Nat) : Bool

/-- The position the host goes to by its own rule, at the host-program line `line`, having read `seen`
so far (R29, R77, D19; log entry 4). -/
opaque hostRule {α : Type} (line : Nat) (seen : List α) : Nat

end Sys2Proof.Config
end

