-- ==== Sys2Proof/Word.lean ====
section
/-!
DEFINITION. The bit vectors the machine moves whole: buffer words, request words and their fields.
-/

namespace Sys2Proof

/-- A word of the reference instance: `W` bits, bit 0 least significant (00_scope.md R9). -/
abbrev Word := BitVec Config.W

/-- A request word: 64 bits for every `W` (30_encoding.md R60). -/
abbrev Request := BitVec 64

/-- A buffer index field of a request: 8 bits, unsigned (30_encoding.md R61). -/
abbrev Index := BitVec 8

/-- A count field of a request: `CW = 32` bits for every `W`, read in two's complement (00_scope.md R6,
30_encoding.md R62). -/
abbrev Count := BitVec 32

/-- A byte of a listing (20_memory.md R42). -/
abbrev Byte := BitVec 8

end Sys2Proof
end

