-- ==== Sys2Proof/Syntax.lean ====
section
/-!
DEFINITION. The 18 operations of 00_scope.md R3, one constructor each, with the fields their format uses
(30_encoding.md R63). The order is that of the opcode map (R64).
-/

namespace Sys2Proof

/-- One request, its fields pulled out of the word. Operand order follows the assembler syntax (R74):
destination first, then sources, then the count. -/
inductive Instr where
  /-- R100, format P. -/
  | isneg (rs1 : Index)
  /-- R101, format P. -/
  | isnneg (rs1 : Index)
  /-- R102, format P. -/
  | iszero (rs1 : Index)
  /-- R111, format S. -/
  | ash (rd rs1 : Index) (count : Count)
  /-- R112, format S. -/
  | lsh (rd rs1 : Index) (count : Count)
  /-- R113, format S. -/
  | csh (rd rs1 : Index) (count : Count)
  /-- R114, format S. -/
  | mask (rd rs1 : Index) (count : Count)
  /-- R140, format B. -/
  | and (rd rs1 rs2 : Index)
  /-- R141, format B. -/
  | or (rd rs1 rs2 : Index)
  /-- R142, format B. -/
  | xor (rd rs1 rs2 : Index)
  /-- R143, format U. -/
  | not (rd rs1 : Index)
  /-- R144, format U. -/
  | neg (rd rs1 : Index)
  /-- R161, format B. -/
  | add (rd rs1 rs2 : Index)
  /-- R162, format B. -/
  | sub (rd rs1 rs2 : Index)
  /-- R180, format B. -/
  | mul (rd rs1 rs2 : Index)
  /-- R201, format D: the quotient goes to `rd`, the remainder to `rd2`. -/
  | divrem (rd rd2 rs1 rs2 : Index)
  /-- R202, format B. -/
  | div (rd rs1 rs2 : Index)
  /-- R203, format B. -/
  | rem (rd rs1 rs2 : Index)
  deriving DecidableEq, Repr

end Sys2Proof
end

