-- ==== Sys2Proof/WellFormed.lean ====
section
/-!
DEFINITION. Which instructions a request word can spell without a fault: every buffer index below `NBUF`
(30_encoding.md R67) and, for `divrem`, two different destinations (R68). The other checks of R70 are
about bits of the word that no field of an instruction holds.
-/

namespace Sys2Proof

/-- A buffer index names a buffer of the instance (R41, R67). -/
def Index.inFile (C : Config.Params) (i : Index) : Bool := decide (i.toNat < C.NBUF)

/-- The instruction passes the checks of R67 and R68 on the instance. -/
def Instr.wf (C : Config.Params) : Instr → Bool
  | .isneg rs1 | .isnneg rs1 | .iszero rs1 => rs1.inFile C
  | .ash rd rs1 _ | .lsh rd rs1 _ | .csh rd rs1 _ | .mask rd rs1 _ | .not rd rs1 | .neg rd rs1 =>
    rd.inFile C && rs1.inFile C
  | .and rd rs1 rs2 | .or rd rs1 rs2 | .xor rd rs1 rs2 | .add rd rs1 rs2 | .sub rd rs1 rs2
  | .mul rd rs1 rs2 | .div rd rs1 rs2 | .rem rd rs1 rs2 =>
    rd.inFile C && rs1.inFile C && rs2.inFile C
  | .divrem rd rd2 rs1 rs2 =>
    rd.inFile C && rs1.inFile C && rs2.inFile C && rd2.inFile C && rd != rd2

/-- Well-formed on the reference instance. -/
abbrev Instr.WellFormed (i : Instr) : Prop := i.wf Config.reference = true

end Sys2Proof
end

