-- ==== Sys2Proof/Decode.lean ====
section
/-!
DEFINITION. The request word: its fields, its five formats, the total decoder of 30_encoding.md R70, the
encoder of R76, and the byte listing of 20_memory.md R42.
-/

namespace Sys2Proof

/-- Why a request is illegal (60_exceptions.md R242), in the order the checks run (R243). -/
inductive Cause where
  /-- Code 1: `OP` is `0x00` or `0x13` to `0x1F` (R65). -/
  | reservedOp
  /-- Code 2: a bit the format requires to be zero is 1 (R66). -/
  | reservedField
  /-- Code 3: a used buffer index is `NBUF` or more (R67). -/
  | indexRange
  /-- Code 4: `divrem` with `RD = RD2` (R68). -/
  | destConflict
  /-- Code 5: a source buffer holds no value (R71). Raised when a request is performed, never by decoding. -/
  | unwrittenRead
  deriving DecidableEq, Repr

/-- The cause codes of R242. -/
def Cause.code : Cause → Nat
  | .reservedOp => 1
  | .reservedField => 2
  | .indexRange => 3
  | .destConflict => 4
  | .unwrittenRead => 5

/-- The five formats of R63. -/
inductive Format where
  /-- Predicate: OP, RS1. -/
  | P
  /-- Unary: OP, RD, RS1. -/
  | U
  /-- Binary: OP, RD, RS1, RS2. -/
  | B
  /-- Shift with count: OP, RD, RS1, X = COUNT. -/
  | S
  /-- Two results: OP, RD, RS1, RS2, X[7:0] = RD2. -/
  | D
  deriving DecidableEq, Repr

/-- The bits of a request that a format fixes: OP and every field it does not use (R63). -/
def Format.fixedBits : Format → Request
  | .P => 0xFFFFFFFFFF00FFFF#64
  | .U => 0xFFFFFFFFFF0000FF#64
  | .B => 0xFFFFFFFF000000FF#64
  | .S => 0x00000000FF0000FF#64
  | .D => 0xFFFFFF00000000FF#64

/-! ### Fields (R60 to R62) -/

/-- `OP = r[4:0]`. -/
def Request.op (r : Request) : BitVec 5 := r.extractLsb' 0 5
/-- `RD = r[15:8]`. -/
def Request.rd (r : Request) : Index := r.extractLsb' 8 8
/-- `RS1 = r[23:16]`. -/
def Request.rs1 (r : Request) : Index := r.extractLsb' 16 8
/-- `RS2 = r[31:24]`. -/
def Request.rs2 (r : Request) : Index := r.extractLsb' 24 8
/-- `RD2 = r[39:32]`, format D (R61). -/
def Request.rd2 (r : Request) : Index := r.extractLsb' 32 8
/-- `COUNT = X = r[63:32]`, format S (R62). -/
def Request.count (r : Request) : Count := r.extractLsb' 32 32

/-! ### The opcode map (R64) -/

/-- The operation that an OP value selects, its format, and its fields taken from the arguments;
none for a reserved OP (R65). -/
def opcodeMap (op : Nat) (rd rs1 rs2 rd2 : Index) (c : Count) : Option (Format × Instr) :=
  match op with
  | 0x01 => some (.P, .isneg rs1)
  | 0x02 => some (.P, .isnneg rs1)
  | 0x03 => some (.P, .iszero rs1)
  | 0x04 => some (.S, .ash rd rs1 c)
  | 0x05 => some (.S, .lsh rd rs1 c)
  | 0x06 => some (.S, .csh rd rs1 c)
  | 0x07 => some (.S, .mask rd rs1 c)
  | 0x08 => some (.B, .and rd rs1 rs2)
  | 0x09 => some (.B, .or rd rs1 rs2)
  | 0x0A => some (.B, .xor rd rs1 rs2)
  | 0x0B => some (.U, .not rd rs1)
  | 0x0C => some (.U, .neg rd rs1)
  | 0x0D => some (.B, .add rd rs1 rs2)
  | 0x0E => some (.B, .sub rd rs1 rs2)
  | 0x0F => some (.B, .mul rd rs1 rs2)
  | 0x10 => some (.D, .divrem rd rd2 rs1 rs2)
  | 0x11 => some (.B, .div rd rs1 rs2)
  | 0x12 => some (.B, .rem rd rs1 rs2)
  | _ => none

/-- The OP value of an operation, the other way round through the map of R64. -/
def Instr.opcode : Instr → BitVec 5
  | .isneg .. => 0x01
  | .isnneg .. => 0x02
  | .iszero .. => 0x03
  | .ash .. => 0x04
  | .lsh .. => 0x05
  | .csh .. => 0x06
  | .mask .. => 0x07
  | .and .. => 0x08
  | .or .. => 0x09
  | .xor .. => 0x0A
  | .not .. => 0x0B
  | .neg .. => 0x0C
  | .add .. => 0x0D
  | .sub .. => 0x0E
  | .mul .. => 0x0F
  | .divrem .. => 0x10
  | .div .. => 0x11
  | .rem .. => 0x12

/-- The buffer indices an instruction's format uses, in the order RD, RS1, RS2, RD2 (R70, R243). -/
def Instr.indices : Instr → List Index
  | .isneg rs1 | .isnneg rs1 | .iszero rs1 => [rs1]
  | .ash rd rs1 _ | .lsh rd rs1 _ | .csh rd rs1 _ | .mask rd rs1 _ | .not rd rs1 | .neg rd rs1 => [rd, rs1]
  | .and rd rs1 rs2 | .or rd rs1 rs2 | .xor rd rs1 rs2 | .add rd rs1 rs2 | .sub rd rs1 rs2
  | .mul rd rs1 rs2 | .div rd rs1 rs2 | .rem rd rs1 rs2 => [rd, rs1, rs2]
  | .divrem rd rd2 rs1 rs2 => [rd, rs1, rs2, rd2]

/-- Both results would go to one buffer: format D with `rd = rd2` (R68). -/
def Instr.destsClash : Instr → Bool
  | .divrem rd rd2 _ _ => rd == rd2
  | _ => false

/-- The checks of R67 and R68 on an instruction's operands, in the order of R70. -/
def Instr.operandCause (C : Config.Params) (i : Instr) : Option Cause :=
  if i.indices.any (fun f => decide (C.NBUF ≤ f.toNat)) then some .indexRange
  else if i.destsClash then some .destConflict
  else none

/-! ### Decoding (R70) -/

/-- `decode(r)` of R70, on the instance: total on all 64-bit words, the first failing check
gives the cause. -/
def decode (C : Config.Params) (r : Request) : Except Cause Instr :=
  match opcodeMap r.op.toNat r.rd r.rs1 r.rs2 r.rd2 r.count with
  | none => .error .reservedOp
  | some (fmt, i) =>
    if r &&& fmt.fixedBits ≠ r.op.setWidth 64 then .error .reservedField
    else
      match i.operandCause C with
      | some k => .error k
      | none => .ok i

/-! ### Encoding (R76) -/

/-- `OP | (RD << 8) | (RS1 << 16) | (RS2 << 24) | (X << 32)`. -/
def packRequest (op : BitVec 5) (rd rs1 rs2 : Index) (x : BitVec 32) : Request :=
  op.setWidth 64 ||| (rd.setWidth 64 <<< 8) ||| (rs1.setWidth 64 <<< 16) ||| (rs2.setWidth 64 <<< 24)
    ||| (x.setWidth 64 <<< 32)

/-- The request word of an instruction: `X` is the count in format S, `RD2` in format D, 0 otherwise, and
unused fields are 0. -/
def encode (i : Instr) : Request :=
  match i with
  | .isneg rs1 | .isnneg rs1 | .iszero rs1 => packRequest i.opcode 0 rs1 0 0
  | .ash rd rs1 c | .lsh rd rs1 c | .csh rd rs1 c | .mask rd rs1 c => packRequest i.opcode rd rs1 0 c
  | .not rd rs1 | .neg rd rs1 => packRequest i.opcode rd rs1 0 0
  | .and rd rs1 rs2 | .or rd rs1 rs2 | .xor rd rs1 rs2 | .add rd rs1 rs2 | .sub rd rs1 rs2
  | .mul rd rs1 rs2 | .div rd rs1 rs2 | .rem rd rs1 rs2 => packRequest i.opcode rd rs1 rs2 0
  | .divrem rd rd2 rs1 rs2 => packRequest i.opcode rd rs1 rs2 (rd2.setWidth 32)

/-! ### Listings as bytes (R42) -/

/-- A request word as its 8 bytes, least significant first. -/
def Request.toBytes (r : Request) : List Byte :=
  [r.extractLsb' 0 8, r.extractLsb' 8 8, r.extractLsb' 16 8, r.extractLsb' 24 8,
   r.extractLsb' 32 8, r.extractLsb' 40 8, r.extractLsb' 48 8, r.extractLsb' 56 8]

/-- Decode a listing: the first 8 bytes as one request, with the bytes that are left. A listing of fewer
than 8 bytes holds no request. -/
def decodeBytes (C : Config.Params) : List Byte → Option (Except Cause Instr × List Byte)
  | b0 :: b1 :: b2 :: b3 :: b4 :: b5 :: b6 :: b7 :: rest =>
    some (decode C (b7 ++ b6 ++ b5 ++ b4 ++ b3 ++ b2 ++ b1 ++ b0), rest)
  | _ => none

/-- The instruction the decoder reads from a request whose low `nbits` bits are `w` and whose bits above
them are 0, on the reference instance. -/
def decodeTableWord (nbits w : Nat) : Option Instr :=
  (decode Config.reference (BitVec.ofNat 64 (w % 2 ^ nbits))).toOption

end Sys2Proof
end

