-- ==== Sys2Proof/Machine/State.lean ====
section
/-!
DEFINITION. The state of the block (10_state.md R32) and of the host beside it (R29), for every instance; what
both are after reset (70_reset_and_hazards.md R270); the reference instance `State`; and why a step can stop.
-/

namespace Sys2Proof.Machine

/-- The block's whole state (R32): `BlockState W NBUF` of the spec. The block proper keeps nothing from one
operation to the next (R20); the constants `ZERO`, `MAXW`, `MINW` are functions of `W` (R21, Operands.lean). -/
structure Block (C : Config.Params) where
  /-- The caller buffer file, each entry a word or no value (R23). -/
  x : Vector (Option (BitVec C.W)) C.NBUF
  /-- The predicate latch `P` (R25). -/
  p : Option Bool
  /-- The fault latch `F`: the cause and the request word of the first illegal request (R27). -/
  fault : Option (Cause × Request)
  deriving DecidableEq, Repr

/-- The block after reset: no buffer, latch or fault holds a value (R270). -/
def Block.reset (C : Config.Params) : Block C :=
  { x := Vector.replicate C.NBUF none, p := none, fault := none }

/-- The moves of 20_memory.md R55, but for `HostIssue`. All of them are allowed while `F` holds a value. -/
inductive HostMove (W : Nat) where
  /-- `HostWrite(i, v)`: `x[i] <- v`. -/
  | write (i : Nat) (v : BitVec W)
  /-- `HostRead(i)`: returns `x[i]`, which may be no value. -/
  | read (i : Nat)
  /-- `HostReadP`: returns `P`, which may be no value. -/
  | readP
  /-- `HostReadF`: returns `F`. -/
  | readF
  /-- `Reset`. -/
  | reset
  deriving DecidableEq, Repr

/-- One line of a host program: a move of 20_memory.md R55, or a host step of 30_encoding.md R77 (log entry
14). -/
inductive HostStep (W : Nat) where
  /-- A move other than `HostIssue`. -/
  | move (m : HostMove W)
  /-- `HostIssue(r)`: hands the request word to the block. -/
  | issue (r : Request)
  /-- `host: hpc ← line`. -/
  | goto (line : Nat)
  /-- `host: if P then hpc ← yes else hpc ← no`. -/
  | branchP (yes no : Nat)
  /-- The host goes on by its own rule, from the values it has read (R29, R77). -/
  | ownRule
  deriving DecidableEq, Repr

/-- What one read by the host returned (R55). -/
inductive HostSeen (W : Nat) where
  /-- `HostRead(i)` returned `v`. -/
  | buffer (i : Nat) (v : Option (BitVec W))
  /-- `HostReadP` returned `v`. -/
  | predicate (v : Option Bool)
  /-- `HostReadF` returned `v`. -/
  | faultLatch (v : Option (Cause × Request))
  deriving DecidableEq, Repr

/-! ### The machine of every instance -/

namespace ForInstance

/-- The block of an instance, and the host that drives it. -/
structure State (C : Config.Params) where
  /-- The block (R32). -/
  block : Block C
  /-- The host program counter (R29). -/
  hpc : Nat
  /-- The host program (R29). It is loaded from outside the machine (log entry 5). -/
  prog : List (HostStep C.W)
  /-- The moves the host makes, first to last, when its program is at a `HostIssue` that has no step because
  `F` holds a value (R245, R55). Loaded from outside, as the program is (log entry 19). -/
  afterFault : List (HostMove C.W)
  /-- What the host's reads have returned so far, oldest first (R55; log entry 6). -/
  reads : List (HostSeen C.W)
  deriving DecidableEq, Repr

/-- The machine after reset (R270): nothing holds a value and `hpc` is 0. The host has no program, plans no
move and has read nothing (log entries 5, 6 and 19). -/
def State.reset (C : Config.Params) : State C :=
  { block := Block.reset C, hpc := 0, prog := [], afterFault := [], reads := [] }

end ForInstance

/-! ### The reference instance -/

/-- The machine of the reference instance (log entry 1). -/
abbrev State := ForInstance.State Config.reference

/-- It, after reset. -/
def State.reset : State := ForInstance.State.reset Config.reference

/-- Why a step stops with a fault. An illegal request is NOT one of these: it is a next state with `F` set
(60_exceptions.md R244). -/
inductive Fault where
  /-- Raised by `HostWrite(i, v)` and `HostRead(i)` with `i ≥ NBUF`: the move is not allowed (R55), because
  no such buffer exists (R41). Safe: the machine stops where the spec has no move. -/
  | noSuchBuffer (i : Nat)
  deriving DecidableEq, Repr

/-- Why a step is refused. -/
inductive Refusal where
  /-- Raised by an arm of `exec` whose instruction has no meaning yet; none is left. Safe. -/
  | notModelled (mnemonic : String)
  /-- Raised by `HostIssue` while `F` holds a value: the block takes no request (R71, R245). A step ends in it
  only where the host plans no other move either (log entry 19). Safe: the spec has no step there. -/
  | faultLatched
  deriving DecidableEq, Repr

end Sys2Proof.Machine
end

