-- ==== Sys2Proof/Machine/Operands.lean ====
section
/-!
DEFINITION. What every operation is written with: the bit primitives and loops of 00_scope.md R11 and R12,
the distinguished constants (10_state.md R21), and the signed count with its effective amounts
(30_encoding.md R62, 41_shift_mask.md R110). All of it for every word length.
-/

namespace Sys2Proof.Machine

/-! ### Bits and loops -/

/-- `bit(v, i)`: the source's `getBit` (R11, R12). Every rule calls it with `i ≤ TOP` (60_exceptions.md
R241); see log entry 8 for other indices. -/
def bit {W : Nat} (v : BitVec W) (i : Nat) : Bool := v.getLsbD i

/-- `setbit(v, i, b)`: `v` with bit `i` replaced by `b`; the source's `setBit` (R11, R12). -/
def setbit {W : Nat} (v : BitVec W) (i : Nat) (b : Bool) : BitVec W :=
  if b then v ||| (1#W <<< i) else v &&& ~~~(1#W <<< i)

/-- `for i = 0 to n − 1: y <- body i y` (R11). -/
def forUp {α : Type} (body : Nat → α → α) : Nat → α → α
  | 0, y => y
  | n + 1, y => body n (forUp body n y)

/-- `for i = n − 1 downto 0: y <- body i y` (R11). -/
def forDown {α : Type} (body : Nat → α → α) : Nat → α → α
  | 0, y => y
  | n + 1, y => forDown body n (body n y)

/-- `for i = 0 to TOP: y = setbit(y, i, f i)`. Every bit of `y` is written, so what `y` starts as does not
matter. -/
def eachBit {W : Nat} (f : Nat → Bool) : BitVec W :=
  forUp (fun i y => setbit y i (f i)) W 0#W

/-! ### Distinguished constants (R21) -/

/-- `ZERO`: all bits 0. -/
def zeroWord (W : Nat) : BitVec W := 0#W

/-- `MAXW`: sign bit 0, all other bits 1. -/
def maxWord (W : Nat) : BitVec W := setbit (BitVec.allOnes W) (W - 1) false

/-- `MINW`: sign bit 1, all other bits 0. -/
def minWord (W : Nat) : BitVec W := setbit 0#W (W - 1) true

/-! ### The count (R62, R110) -/

/-- `c = sint_32(X)`: the count an operation sees (R62). -/
def countOf (c : Count) : Int := c.toInt

/-- `k = min(|c|, W − 1)`, for `ash` and `lsh`. -/
def shiftAmount (W : Nat) (c : Int) : Nat := min c.natAbs (W - 1)

/-- `k = min(|c|, W)`, for `mask`. -/
def maskAmount (W : Nat) (c : Int) : Nat := min c.natAbs W

/-- `k = |c| mod W`, for `csh`. -/
def rotateAmount (W : Nat) (c : Int) : Nat := c.natAbs % W

end Sys2Proof.Machine
end

