-- ==== Sys2Proof/Machine/Flags.lean ====
section
/-!
DEFINITION. The Boolean results of the block. It has no condition flags: no carry, overflow or zero flag
exists, and what an addition carries out of the top bit is discarded (10_state.md R25). The only Booleans
are the three predicates of the Comparator (40_comparator.md), written here once for every word length;
the request `isneg`, `isnneg` or `iszero` latches one in `P`, and the multiplier and divider use them
inside.
-/

namespace Sys2Proof.Machine

/-- `core(isneg, a)`: the sign bit of `a` is 1 (R100). -/
def coreIsneg {W : Nat} (a : BitVec W) : Bool := bit a (W - 1) == true

/-- `core(isnneg, a)`: the logical complement of `isneg` (R101). -/
def coreIsnneg {W : Nat} (a : BitVec W) : Bool := !(bit a (W - 1) == true)

/-- `core(iszero, a)`: every bit from 0 to the top index is 0 (R102). -/
def coreIszero {W : Nat} (a : BitVec W) : Bool := forUp (fun i acc => acc && bit a i == false) W true

end Sys2Proof.Machine
end

