-- ==== Sys2Proof/Machine/Ops.lean ====
section
/-!
DEFINITION. The named operations on the state: reading and writing a caller buffer, taking the request
fault (60_exceptions.md R244), and performing a decoded request of each shape (30_encoding.md R71). The
operations on the block are for every word length and every buffer count.

There is no return from a fault and no nesting (R246): only reset clears the fault latch.
-/

namespace Sys2Proof.Machine

variable {C : Config.Params}

/-! ### Buffers and latches -/

/-- `x[j]`: the word buffer `j` holds, or no value (R23, R24). -/
def Block.read (b : Block C) (j : Nat) : Option (BitVec C.W) := (b.x[j]?).join

/-- `x[j] <- v` (R23). -/
def Block.write (b : Block C) (j : Nat) (v : BitVec C.W) : Block C :=
  { b with x := b.x.setIfInBounds j (some v) }

/-- `P <- v` (R25). -/
def Block.latchP (b : Block C) (v : Bool) : Block C := { b with p := some v }

/-- Fault entry: on `IllegalRequest(k)` for request `r`, `F <- (k, r)` and nothing else (R244). -/
def Block.raise (b : Block C) (k : Cause) (r : Request) : Block C := { b with fault := some (k, r) }

/-! ### Performing a decoded request (R71) -/

/-- What the block makes of a request it is handed. -/
inductive Issue (C : Config.Params) where
  /-- No step: `F` holds a value (R245). -/
  | refused
  /-- The request is illegal: the block after fault entry (R244). -/
  | raised (b : Block C)
  /-- The request is complete: the block after its writes. -/
  | done (b : Block C)
  deriving DecidableEq, Repr

/-- R71 around one decoded request: no step while `F` holds a value; the operand checks of R67 and R68;
then `body`, which answers none where a source holds no value. The word recorded is the one that spells
the request (R76). -/
def Block.attempt (i : Instr) (body : Block C → Option (Block C)) (b : Block C) : Issue C :=
  if b.fault.isSome then .refused
  else
    match i.operandCause C with
    | some k => .raised (b.raise k (encode i))
    | none =>
      match body b with
      | none => .raised (b.raise .unwrittenRead (encode i))
      | some b' => .done b'

/-- Format P: read one source, latch the predicate in `P` (R44, R103). -/
def Block.predicate (rs1 : Index) (f : BitVec C.W → Bool) (b : Block C) : Option (Block C) :=
  match b.read rs1.toNat with
  | none => none
  | some a => some (b.latchP (f a))

/-- Formats U and S: read one source, write one destination (R44). -/
def Block.unary (rd rs1 : Index) (f : BitVec C.W → BitVec C.W) (b : Block C) : Option (Block C) :=
  match b.read rs1.toNat with
  | none => none
  | some a => some (b.write rd.toNat (f a))

/-- Format B: read both sources, then write the destination (R44, R45). -/
def Block.binary (rd rs1 rs2 : Index) (f : BitVec C.W → BitVec C.W → BitVec C.W) (b : Block C) :
    Option (Block C) :=
  match b.read rs1.toNat, b.read rs2.toNat with
  | some u, some v => some (b.write rd.toNat (f u v))
  | _, _ => none

/-- Format D: read both sources, then write both destinations, the quotient's first (R44, R45, R71). -/
def Block.twoResults (rd rd2 rs1 rs2 : Index) (f : BitVec C.W → BitVec C.W → BitVec C.W × BitVec C.W)
    (b : Block C) : Option (Block C) :=
  match b.read rs1.toNat, b.read rs2.toNat with
  | some u, some v => some ((b.write rd.toNat (f u v).1).write rd2.toNat (f u v).2)
  | _, _ => none

/-! ### The machine around the block -/

/-- The outcome of a step of the machine of an instance. -/
abbrev Outcome (C : Config.Params) := Host.Outcome (ForInstance.State C) Fault Refusal

/-- The machine takes `IllegalRequest(k)` for request `r`: `F` is set and `hpc` does not advance (R244). -/
def ForInstance.State.raise (s : ForInstance.State C) (k : Cause) (r : Request) : ForInstance.State C :=
  { s with block := s.block.raise k r }

/-- The host sees what became of its request: after a completed one `hpc` advances by 1 (R29, R77); after
an illegal one it does not (R244); a block with `F` set has no step (R245). -/
def ForInstance.State.settle (s : ForInstance.State C) : Issue C → Outcome C
  | .refused => .refused .faultLatched
  | .raised b => .next { s with block := b }
  | .done b => .next { s with block := b, hpc := s.hpc + 1 }

/-- Perform the decoded request `i` on the machine, `body` being what its shape does to the block (R71). -/
def ForInstance.State.perform (i : Instr) (body : Block C → Option (Block C)) (s : ForInstance.State C) : Outcome C :=
  s.settle (s.block.attempt i body)

end Sys2Proof.Machine
end

