-- ==== Sys2Proof/Machine/Comparator.lean ====
section
/-!
DEFINITION. The Comparator (40_comparator.md): the meanings of `isneg`, `isnneg` and `iszero`. Each reads
one buffer and writes only the predicate latch (R103). Their core functions stand in Flags.lean.
-/

namespace Sys2Proof.Machine

variable {C : Config.Params}

/-- R100. -/
def execIsneg (rs1 : Index) (s : ForInstance.State C) : Outcome C :=
  s.perform (.isneg rs1) (Block.predicate rs1 coreIsneg)

/-- R101. -/
def execIsnneg (rs1 : Index) (s : ForInstance.State C) : Outcome C :=
  s.perform (.isnneg rs1) (Block.predicate rs1 coreIsnneg)

/-- R102. -/
def execIszero (rs1 : Index) (s : ForInstance.State C) : Outcome C :=
  s.perform (.iszero rs1) (Block.predicate rs1 coreIszero)

end Sys2Proof.Machine
end

