-- ==== Sys2Proof/Machine/AddSub.lean ====
section
/-!
DEFINITION. The Adder/Subtractor (43_add_sub.md): the ripple-carry chain, the core functions of `add` and
`sub`, and the two meanings. No flag is written, and the carry out of the top bit is discarded.
-/

namespace Sys2Proof.Machine

variable {C : Config.Params}

/-- One bit position of the chain (R160): the sum of two operand bits and the carry, an integer in 0..3,
whose low bit is the result bit and whose high bit is the carry out. -/
def rippleStep {W : Nat} (a b : BitVec W) (i : Nat) (st : BitVec W × Bool) : BitVec W × Bool :=
  let sum := (bit a i).toNat + (bit b i).toNat + st.2.toNat
  (setbit st.1 i (sum % 2 == 1), sum / 2 == 1)

/-- `add_rc(a, b, cin)` (R160). -/
def addRc {W : Nat} (a b : BitVec W) (cin : Bool) : BitVec W :=
  (forUp (rippleStep a b) W (0#W, cin)).1

/-- `core(add, a, b, _)`: the initial carry is 0 (R161). -/
def coreAdd {W : Nat} (a b : BitVec W) : BitVec W := addRc a b false

/-- `core(sub, a, b, _)`: `op1 + ~op2 + 1` (R162). -/
def coreSub {W : Nat} (a b : BitVec W) : BitVec W := addRc a (~~~b) true

/-- R161. -/
def execAdd (rd rs1 rs2 : Index) (s : ForInstance.State C) : Outcome C :=
  s.perform (.add rd rs1 rs2) (Block.binary rd rs1 rs2 coreAdd)

/-- R162. -/
def execSub (rd rs1 rs2 : Index) (s : ForInstance.State C) : Outcome C :=
  s.perform (.sub rd rs1 rs2) (Block.binary rd rs1 rs2 coreSub)

end Sys2Proof.Machine
end

