-- ==== Sys2Proof/Machine/Logic.lean ====
section
/-!
DEFINITION. The Logic Unit (42_logic.md): the core functions of `and`, `or`, `xor`, `not` and `neg`, and
the five meanings. `neg` is the subtractor's (R144).
-/

namespace Sys2Proof.Machine

variable {C : Config.Params}

/-- `core(and, a, b, _)`: AND at every index, no carry (R140). -/
def coreAnd {W : Nat} (a b : BitVec W) : BitVec W := eachBit fun i => bit a i && bit b i

/-- `core(or, a, b, _)` (R141). -/
def coreOr {W : Nat} (a b : BitVec W) : BitVec W := eachBit fun i => bit a i || bit b i

/-- `core(xor, a, b, _)` (R142). -/
def coreXor {W : Nat} (a b : BitVec W) : BitVec W := eachBit fun i => bit a i ^^ bit b i

/-- `core(not, a, _, _)`: `complementBit` at every index (R143). -/
def coreNot {W : Nat} (a : BitVec W) : BitVec W := eachBit fun i => !bit a i

/-- `core(neg, a, _, _) = sub(ZERO, a)` (R144). -/
def coreNeg {W : Nat} (a : BitVec W) : BitVec W := coreSub (zeroWord W) a

/-- R140. -/
def execAnd (rd rs1 rs2 : Index) (s : ForInstance.State C) : Outcome C :=
  s.perform (.and rd rs1 rs2) (Block.binary rd rs1 rs2 coreAnd)

/-- R141. -/
def execOr (rd rs1 rs2 : Index) (s : ForInstance.State C) : Outcome C :=
  s.perform (.or rd rs1 rs2) (Block.binary rd rs1 rs2 coreOr)

/-- R142. -/
def execXor (rd rs1 rs2 : Index) (s : ForInstance.State C) : Outcome C :=
  s.perform (.xor rd rs1 rs2) (Block.binary rd rs1 rs2 coreXor)

/-- R143. -/
def execNot (rd rs1 : Index) (s : ForInstance.State C) : Outcome C :=
  s.perform (.not rd rs1) (Block.unary rd rs1 coreNot)

/-- R144. -/
def execNeg (rd rs1 : Index) (s : ForInstance.State C) : Outcome C :=
  s.perform (.neg rd rs1) (Block.unary rd rs1 coreNeg)

end Sys2Proof.Machine
end

