-- ==== Sys2Proof/Machine/ShiftMask.lean ====
section
/-!
DEFINITION. The Shift/Mask Unit (41_shift_mask.md): the core functions of `ash`, `lsh`, `csh` and `mask`,
bit by bit as the spec writes them, and the four meanings.
-/

namespace Sys2Proof.Machine

variable {C : Config.Params}

/-- The left shift that R111 and R112 share: vacated low bits are 0. -/
def shiftLeftBits {W : Nat} (k : Nat) (a : BitVec W) : BitVec W :=
  eachBit fun i => if k ≤ i then bit a (i - k) else false

/-- The right shift of R111 and R112, `fill` being what enters at the top. -/
def shiftRightBits {W : Nat} (k : Nat) (fill : Bool) (a : BitVec W) : BitVec W :=
  eachBit fun i => if i + k ≤ W - 1 then bit a (i + k) else fill

/-- `core(ash, a, _, c)` (R111): the forced sign bit belongs to the right shift only (90_conflicts.md C1). -/
def coreAsh {W : Nat} (c : Int) (a : BitVec W) : BitVec W :=
  if 0 < c then shiftLeftBits (shiftAmount W c) a
  else if c < 0 then setbit (shiftRightBits (shiftAmount W c) (bit a (W - 1)) a) (W - 1) (bit a (W - 1))
  else a

/-- `core(lsh, a, _, c)` (R112). -/
def coreLsh {W : Nat} (c : Int) (a : BitVec W) : BitVec W :=
  if 0 < c then shiftLeftBits (shiftAmount W c) a
  else if c < 0 then shiftRightBits (shiftAmount W c) false a
  else a

/-- `core(csh, a, _, c)` (R113): parametric in the word length (90_conflicts.md C4). -/
def coreCsh {W : Nat} (c : Int) (a : BitVec W) : BitVec W :=
  if rotateAmount W c = 0 then a
  else if 0 < c then forUp (fun i y => setbit y ((i + rotateAmount W c) % W) (bit a i)) W 0#W
  else eachBit fun i => bit a ((i + rotateAmount W c) % W)

/-- `core(mask, a, _, c)` (R114). -/
def coreMask {W : Nat} (c : Int) (a : BitVec W) : BitVec W :=
  if 0 < c then eachBit fun i => if i < maskAmount W c then bit a i else false
  else if c < 0 then eachBit fun i => if W - maskAmount W c ≤ i then bit a i else false
  else zeroWord W

/-- R111. -/
def execAsh (rd rs1 : Index) (count : Count) (s : ForInstance.State C) : Outcome C :=
  s.perform (.ash rd rs1 count) (Block.unary rd rs1 (coreAsh (countOf count)))

/-- R112. -/
def execLsh (rd rs1 : Index) (count : Count) (s : ForInstance.State C) : Outcome C :=
  s.perform (.lsh rd rs1 count) (Block.unary rd rs1 (coreLsh (countOf count)))

/-- R113. -/
def execCsh (rd rs1 : Index) (count : Count) (s : ForInstance.State C) : Outcome C :=
  s.perform (.csh rd rs1 count) (Block.unary rd rs1 (coreCsh (countOf count)))

/-- R114. -/
def execMask (rd rs1 : Index) (count : Count) (s : ForInstance.State C) : Outcome C :=
  s.perform (.mask rd rs1 count) (Block.unary rd rs1 (coreMask (countOf count)))

end Sys2Proof.Machine
end

