-- ==== Sys2Proof/Machine/Multiplier.lean ====
section
/-!
DEFINITION. The Multiplier (44_multiplier.md): shift-and-add on sign-corrected magnitudes, and the meaning
of `mul`.
-/

namespace Sys2Proof.Machine

variable {C : Config.Params}

/-- The sign-corrected magnitude of an operand (R180 step 2, R200 step 2): negated if its sign bit is 1. -/
def magnitude {W : Nat} (a : BitVec W) : BitVec W := if coreIsneg a then coreNeg a else a

/-- The working words of the multiplication: the shifting and the shifted operand, and the accumulator. -/
structure MulRegs (W : Nat) where
  m1 : BitVec W
  m2 : BitVec W
  acc : BitVec W
  deriving DecidableEq, Repr

/-- The body of step 3's loop (R180). -/
def mulBody {W : Nat} (r : MulRegs W) : MulRegs W :=
  { m1 := coreLsh 1 r.m1
    m2 := coreLsh (-1) r.m2
    acc := if bit r.m2 0 then coreAdd r.acc r.m1 else r.acc }

/-- Step 3 (R180): `while not iszero(m2)`, for at most `fuel` iterations. The loop ends by itself within `W`
iterations, for every `W ≥ 2` the spec admits (R182, D3). -/
def mulWhile {W : Nat} [W.AtLeastTwo] (fuel : Nat) (r : MulRegs W) : MulRegs W :=
  match fuel with
  | 0 => r
  | n + 1 => if coreIszero r.m2 then r else mulWhile n (mulBody r)

/-- `core(mul, a, b, _)` (R180). -/
def coreMul {W : Nat} [W.AtLeastTwo] (a b : BitVec W) : BitVec W :=
  let s := bit a (W - 1) ^^ bit b (W - 1)
  let r := mulWhile W { m1 := magnitude a, m2 := magnitude b, acc := zeroWord W }
  if s then coreNeg r.acc else r.acc

/-- R180. -/
def execMul (rd rs1 rs2 : Index) (s : ForInstance.State C) : Outcome C :=
  haveI := C.atLeastTwo
  s.perform (.mul rd rs1 rs2) (Block.binary rd rs1 rs2 coreMul)

end Sys2Proof.Machine
end

