-- ==== Sys2Proof/Machine/Divider.lean ====
section
/-!
DEFINITION. The Divider (45_divider.md): restoring division producing quotient and remainder together, and
the meanings of `divrem`, `div` and `rem`. Division by zero saturates and is no error (R200 step 1).
-/

namespace Sys2Proof.Machine

variable {C : Config.Params}

/-- The working words of the division: partial quotient and partial remainder. -/
structure DivRegs (W : Nat) where
  q : BitVec W
  r : BitVec W
  deriving DecidableEq, Repr

/-- The remainder shifted left by 1 with dividend bit `i` brought down into bit 0 (R200 step 3). -/
def bringDown {W : Nat} (dividend : BitVec W) (i : Nat) (r : BitVec W) : BitVec W :=
  setbit (coreLsh 1 r) 0 (bit dividend i)

/-- One iteration of step 3 (R200): bring down, subtract tentatively, commit where the trial word is
non-negative. -/
def divBody {W : Nat} (dividend divisor : BitVec W) (i : Nat) (st : DivRegs W) : DivRegs W :=
  let r := bringDown dividend i st.r
  let trial := coreSub r divisor
  if coreIsnneg trial then { q := setbit st.q i true, r := trial } else { st with r := r }

/-- Step 3 (R200): unsigned restoring division of the magnitudes, from `Q = R = ZERO` (D14), bit index from
the top down to 0. -/
def divMagnitudes {W : Nat} [W.AtLeastTwo] (dividend divisor : BitVec W) : DivRegs W :=
  forDown (divBody dividend divisor) W { q := zeroWord W, r := zeroWord W }

/-- `divcore(a, b)`: quotient and remainder (R200). -/
def divcore {W : Nat} [W.AtLeastTwo] (a b : BitVec W) : BitVec W × BitVec W :=
  if coreIszero b then (if coreIsnneg a then maxWord W else minWord W, zeroWord W)
  else
    let st := divMagnitudes (magnitude a) (magnitude b)
    (if bit a (W - 1) ^^ bit b (W - 1) then coreNeg st.q else st.q,
     if bit a (W - 1) then coreNeg st.r else st.r)

/-- `core(div, a, b, _)` (R202). -/
def coreDiv {W : Nat} [W.AtLeastTwo] (a b : BitVec W) : BitVec W := (divcore a b).1

/-- `core(rem, a, b, _)` (R203). -/
def coreRem {W : Nat} [W.AtLeastTwo] (a b : BitVec W) : BitVec W := (divcore a b).2

/-- R201. -/
def execDivrem (rd rd2 rs1 rs2 : Index) (s : ForInstance.State C) : Outcome C :=
  haveI := C.atLeastTwo
  s.perform (.divrem rd rd2 rs1 rs2) (Block.twoResults rd rd2 rs1 rs2 divcore)

/-- R202. -/
def execDiv (rd rs1 rs2 : Index) (s : ForInstance.State C) : Outcome C :=
  haveI := C.atLeastTwo
  s.perform (.div rd rs1 rs2) (Block.binary rd rs1 rs2 coreDiv)

/-- R203. -/
def execRem (rd rs1 rs2 : Index) (s : ForInstance.State C) : Outcome C :=
  haveI := C.atLeastTwo
  s.perform (.rem rd rs1 rs2) (Block.binary rd rs1 rs2 coreRem)

end Sys2Proof.Machine
end

