-- ==== Sys2Proof/Machine/Dispatch.lean ====
section
/-!
DEFINITION. One arm per operation of the opcode map (30_encoding.md R64): each calls its meaning.
-/

namespace Sys2Proof.Machine

def exec (i : Instr) (s : State) : Host.Outcome State Fault Refusal :=
  match i with
  -- Comparator
  | .isneg rs1 => Sys2Proof.Machine.execIsneg rs1 s
  | .isnneg rs1 => Sys2Proof.Machine.execIsnneg rs1 s
  | .iszero rs1 => Sys2Proof.Machine.execIszero rs1 s
  -- Shift/Mask Unit
  | .ash rd rs1 count => Sys2Proof.Machine.execAsh rd rs1 count s
  | .lsh rd rs1 count => Sys2Proof.Machine.execLsh rd rs1 count s
  | .csh rd rs1 count => Sys2Proof.Machine.execCsh rd rs1 count s
  | .mask rd rs1 count => Sys2Proof.Machine.execMask rd rs1 count s
  -- Logic Unit
  | .and rd rs1 rs2 => Sys2Proof.Machine.execAnd rd rs1 rs2 s
  | .or rd rs1 rs2 => Sys2Proof.Machine.execOr rd rs1 rs2 s
  | .xor rd rs1 rs2 => Sys2Proof.Machine.execXor rd rs1 rs2 s
  | .not rd rs1 => Sys2Proof.Machine.execNot rd rs1 s
  | .neg rd rs1 => Sys2Proof.Machine.execNeg rd rs1 s
  -- Adder/Subtractor
  | .add rd rs1 rs2 => Sys2Proof.Machine.execAdd rd rs1 rs2 s
  | .sub rd rs1 rs2 => Sys2Proof.Machine.execSub rd rs1 rs2 s
  -- Multiplier
  | .mul rd rs1 rs2 => Sys2Proof.Machine.execMul rd rs1 rs2 s
  -- Divider
  | .divrem rd rd2 rs1 rs2 => Sys2Proof.Machine.execDivrem rd rd2 rs1 rs2 s
  | .div rd rs1 rs2 => Sys2Proof.Machine.execDiv rd rs1 rs2 s
  | .rem rd rs1 rs2 => Sys2Proof.Machine.execRem rd rs1 rs2 s

end Sys2Proof.Machine
end

