-- ==== Sys2Proof/Machine/Request.lean ====
section
/-!
DEFINITION. The request layer as 30_encoding.md states it, for every instance: the core function of R72 and the
performing of a raw request word of R71. It is the form, for every instance, of what decoding and `exec` do on
the reference instance; both call the same core functions.
-/

namespace Sys2Proof.Machine

variable {W : Nat} {C : Config.Params}

/-- What the core function returns (R72). -/
inductive Result (W : Nat) where
  | pred (p : Bool)
  | one (y : BitVec W)
  | two (q m : BitVec W)
  deriving DecidableEq, Repr

/-- `core(op, a, b, c)` (R72), the operation and the count taken from the instruction. Operations with one
operand ignore `b`. It is the core of an instance, so words have 2 bits or more (R5). -/
def coreResult [W.AtLeastTwo] (i : Instr) (a b : BitVec W) : Result W :=
  match i with
  | .isneg .. => .pred (coreIsneg a)
  | .isnneg .. => .pred (coreIsnneg a)
  | .iszero .. => .pred (coreIszero a)
  | .ash _ _ c => .one (coreAsh (countOf c) a)
  | .lsh _ _ c => .one (coreLsh (countOf c) a)
  | .csh _ _ c => .one (coreCsh (countOf c) a)
  | .mask _ _ c => .one (coreMask (countOf c) a)
  | .and .. => .one (coreAnd a b)
  | .or .. => .one (coreOr a b)
  | .xor .. => .one (coreXor a b)
  | .not .. => .one (coreNot a)
  | .neg .. => .one (coreNeg a)
  | .add .. => .one (coreAdd a b)
  | .sub .. => .one (coreSub a b)
  | .mul .. => .one (coreMul a b)
  | .divrem .. => .two (divcore a b).1 (divcore a b).2
  | .div .. => .one (coreDiv a b)
  | .rem .. => .one (coreRem a b)

/-- The format is B or D, so that the request has a second source (R71). -/
def Instr.hasSecondSource : Instr → Bool
  | .isneg .. | .isnneg .. | .iszero .. => false
  | .ash .. | .lsh .. | .csh .. | .mask .. => false
  | .not .. | .neg .. => false
  | .and .. | .or .. | .xor .. | .add .. | .sub .. | .mul .. | .div .. | .rem .. => true
  | .divrem .. => true

/-- The writes of R71: `P`, or the buffer of field RD, or those of RD and RD2. -/
def Block.deliver (r : Request) (b : Block C) : Result C.W → Block C
  | .pred p => b.latchP p
  | .one y => b.write r.rd.toNat y
  | .two q m => (b.write r.rd.toNat q).write r.rd2.toNat m

/-- `perform(r)` (R71): one atomic step of the block. -/
def Block.performWord (r : Request) (b : Block C) : Issue C :=
  haveI := C.atLeastTwo
  if b.fault.isSome then .refused
  else
    match decode C r with
    | .error k => .raised (b.raise k r)
    | .ok i =>
      match b.read r.rs1.toNat with
      | none => .raised (b.raise .unwrittenRead r)
      | some u =>
        match if Instr.hasSecondSource i then b.read r.rs2.toNat else some (zeroWord C.W) with
        | none => .raised (b.raise .unwrittenRead r)
        | some v => .done (b.deliver r (coreResult i u v))

/-- `HostIssue(r)` on the machine of any instance: R71, and what the host sees of it. -/
def ForInstance.State.hostIssue (r : Request) (s : ForInstance.State C) : Outcome C := s.settle (s.block.performWord r)

end Sys2Proof.Machine
end

