-- ==== Sys2Proof/Machine/HostMoves.lean ====
section
/-!
DEFINITION. The host's moves (20_memory.md R55), its own steps (30_encoding.md R77) and which of them it makes,
for every instance; and `HostIssue` on the reference instance. Each is one indivisible step (R46), and
`HostIssue` is the only move through which an operation runs.
-/

namespace Sys2Proof.Machine

variable {C : Config.Params}

/-! ### The moves other than `HostIssue`. None of them but `Reset` touches `hpc`. -/

/-- The host goes on to its next line. -/
def ForInstance.State.advance (s : ForInstance.State C) : ForInstance.State C := { s with hpc := s.hpc + 1 }

/-- The host goes to a line of its program (R29, R77). -/
def ForInstance.State.goto (s : ForInstance.State C) (line : Nat) : ForInstance.State C := { s with hpc := line }

/-- The host has read a value. Reading changes nothing of the block (R47). -/
def ForInstance.State.see (s : ForInstance.State C) (v : HostSeen C.W) : ForInstance.State C :=
  { s with reads := s.reads ++ [v] }

/-- `HostWrite(i, v)`: `x[i] <- v`, where `i < NBUF` (R55; log entry 13). -/
def ForInstance.State.hostWrite (i : Nat) (v : BitVec C.W) (s : ForInstance.State C) : Outcome C :=
  if i < C.NBUF then .next { s with block := s.block.write i v } else .fault (.noSuchBuffer i)

/-- `HostRead(i)`: returns `x[i]`, which may be no value, where `i < NBUF` (R55, R24; log entry 13). -/
def ForInstance.State.hostRead (i : Nat) (s : ForInstance.State C) : Outcome C :=
  if i < C.NBUF then .next (s.see (.buffer i (s.block.read i))) else .fault (.noSuchBuffer i)

/-- `HostReadP` (R55). -/
def ForInstance.State.hostReadP (s : ForInstance.State C) : ForInstance.State C := s.see (.predicate s.block.p)

/-- `HostReadF` (R55). -/
def ForInstance.State.hostReadF (s : ForInstance.State C) : ForInstance.State C := s.see (.faultLatch s.block.fault)

/-- `Reset` (70_reset_and_hazards.md R270): every piece of state the spec gives takes its reset value. The
host keeps its program, the moves it plans and what it has read (log entry 7). -/
def ForInstance.State.hostReset (s : ForInstance.State C) : ForInstance.State C :=
  { ForInstance.State.reset C with prog := s.prog, afterFault := s.afterFault, reads := s.reads }

/-- The host makes a move. -/
def ForInstance.State.makeMove (m : HostMove C.W) (s : ForInstance.State C) : Outcome C :=
  match m with
  | .write i v => s.hostWrite i v
  | .read i => s.hostRead i
  | .readP => .next s.hostReadP
  | .readF => .next s.hostReadF
  | .reset => .next s.hostReset

/-! ### The host's own steps -/

/-- `host: if P then hpc ← yes else hpc ← no` (R77): the host reads `P` and decides. Where `P` holds no
value the spec does not say what the host decides, and it goes where its own rule says (log entry 4). -/
def ForInstance.State.hostBranchP (yes no : Nat) (s : ForInstance.State C) : ForInstance.State C :=
  let t := s.hostReadP
  match s.block.p with
  | some true => t.goto yes
  | some false => t.goto no
  | none => t.goto (Config.hostRule s.hpc t.reads)

/-- The host's own rule, from the values it has read (R29, R77; log entry 4). -/
def ForInstance.State.hostOwnRule (s : ForInstance.State C) : ForInstance.State C :=
  s.goto (Config.hostRule s.hpc s.reads)

/-! ### What the host does next -/

/-- The host is at a `HostIssue` that has no step, because `F` holds a value (R245). `hpc` stays there (R244),
and the host makes the next of the other moves it plans, which R55 and R245 still allow; where it plans none,
nothing is left to do (log entry 19). -/
def ForInstance.State.moveAfterFault (s : ForInstance.State C) : Outcome C :=
  match s.afterFault with
  | [] => .refused .faultLatched
  | m :: rest => ({ s with afterFault := rest } : ForInstance.State C).makeMove m

/-- One step of the host, `issue` being what `HostIssue` does while `F` holds no value: it makes the move its
program has at `hpc`. A move that is no request takes one line of the program, too (log entry 11). Past the end
of its program it makes no move, and the idle block does not change (60_exceptions.md R253,
70_reset_and_hazards.md R271; log entry 9). -/
def ForInstance.State.turn (issue : Request → ForInstance.State C → Outcome C) (s : ForInstance.State C) : Outcome C :=
  match s.prog[s.hpc]? with
  | none => .next s
  | some (.move m) => s.advance.makeMove m
  | some (.issue r) => if s.block.fault.isSome then s.moveAfterFault else issue r s
  | some (.goto line) => .next (s.goto line)
  | some (.branchP yes no) => .next (s.hostBranchP yes no)
  | some .ownRule => .next s.hostOwnRule

/-- One step of the machine of any instance. -/
def ForInstance.State.step (s : ForInstance.State C) : Outcome C := s.turn ForInstance.State.hostIssue

/-! ### The reference instance -/

/-- `HostIssue(r)`: the block decodes `r` by R70 and performs it by R71, if `F` holds no value (R55, R245). -/
def State.hostIssue (r : Request) (s : State) : Host.Outcome State Fault Refusal :=
  if s.block.fault.isSome then .refused .faultLatched
  else
    match decode Config.reference r with
    | .error k => .next (s.raise k r)
    | .ok i => exec i s

/-- The host's program with line `n` replaced by `h`; where the program is shorter, the lines up to `n` are
`HostReadF`, which changes nothing of the block. -/
def setLine (prog : List (HostStep Config.W)) (n : Nat) (h : HostStep Config.W) : List (HostStep Config.W) :=
  if n < prog.length then prog.set n h else prog ++ List.replicate (n - prog.length) (.move .readF) ++ [h]

end Sys2Proof.Machine
end

