-- ==== Sys2Proof/Machine/Step.lean ====
section
/-!
DEFINITION. One step of the machine: the host makes the move its program has at `hpc` (10_state.md R29).
-/

namespace Sys2Proof.Machine

/-- One host move, in which a request is decoded and run by `exec`. -/
def step (s : State) : Host.Outcome State Fault Refusal := s.turn State.hostIssue

/-- `s` with the host about to issue the request whose low `nbits` bits are `w` and whose bits above them
are 0: the line at `hpc` is that `HostIssue`, and nothing else changes (log entry 5). -/
def State.withFetchWord (s : State) (nbits w : Nat) : State :=
  { s with prog := setLine s.prog s.hpc (.issue (BitVec.ofNat 64 (w % 2 ^ nbits))) }

end Sys2Proof.Machine
end

