-- ==== Sys2Proof/Machine/Assembler.lean ====
section
/-!
DEFINITION. The assembler syntax of one request line (30_encoding.md R74) and the pseudo-instructions
(R75), from text to an instruction. Text is a list of characters.
-/

namespace Sys2Proof.Machine

/-! ### Pseudo-instructions (R75): each is exactly one request -/

/-- `mov xD, xS` is `or xD, xS, xS`. -/
def pseudoMov (xd xs : Index) : Instr := .or xd xs xs

/-- `clr xD, xS` is `xor xD, xS, xS`. -/
def pseudoClr (xd xs : Index) : Instr := .xor xd xs xs

/-- A count as the 32-bit field of format S; none outside [−2^31, 2^31 − 1] (R62, R74). -/
def countField (c : Int) : Option Count :=
  if -(2 ^ 31) ≤ c ∧ c < 2 ^ 31 then some (BitVec.ofInt 32 c) else none

/-- The count of a pseudo-instruction that shifts left, `0 ≤ k ≤ 2^31 − 1`. -/
def leftCount (k : Int) : Option Count := if 0 ≤ k then countField k else none

/-- The count of a pseudo-instruction that shifts right, `−k` for `0 ≤ k ≤ 2^31`. -/
def rightCount (k : Int) : Option Count := if 0 ≤ k then countField (-k) else none

/-- `shl xD, xS, k` is `lsh xD, xS, k`. -/
def pseudoShl (xd xs : Index) (k : Int) : Option Instr := (leftCount k).map (.lsh xd xs)

/-- `shr xD, xS, k` is `lsh xD, xS, -k`. -/
def pseudoShr (xd xs : Index) (k : Int) : Option Instr := (rightCount k).map (.lsh xd xs)

/-- `sar xD, xS, k` is `ash xD, xS, -k`. -/
def pseudoSar (xd xs : Index) (k : Int) : Option Instr := (rightCount k).map (.ash xd xs)

/-- `rol xD, xS, k` is `csh xD, xS, k`. -/
def pseudoRol (xd xs : Index) (k : Int) : Option Instr := (leftCount k).map (.csh xd xs)

/-- `ror xD, xS, k` is `csh xD, xS, -k`. -/
def pseudoRor (xd xs : Index) (k : Int) : Option Instr := (rightCount k).map (.csh xd xs)

/-! ### Words of a line -/

/-- A line cut at every `sep`. -/
def splitAt (sep : Char) : List Char → List (List Char)
  | [] => [[]]
  | c :: cs =>
    if c = sep then [] :: splitAt sep cs
    else
      match splitAt sep cs with
      | [] => [[c]]
      | w :: ws => (c :: w) :: ws

/-- Blanks taken off both ends. -/
def trim (cs : List Char) : List Char :=
  ((cs.dropWhile (· = ' ')).reverse.dropWhile (· = ' ')).reverse

/-- The value of a digit in bases up to 16. -/
def digitValue (c : Char) : Option Nat :=
  if '0' ≤ c ∧ c ≤ '9' then some (c.toNat - '0'.toNat)
  else if 'a' ≤ c ∧ c ≤ 'f' then some (c.toNat - 'a'.toNat + 10)
  else if 'A' ≤ c ∧ c ≤ 'F' then some (c.toNat - 'A'.toNat + 10)
  else none

/-- A digit more, in base `base`. -/
def addDigit (base : Nat) (acc : Option Nat) (c : Char) : Option Nat :=
  match acc, digitValue c with
  | some n, some d => if d < base then some (n * base + d) else none
  | _, _ => none

/-- A number without sign, of one digit or more. -/
def numeral (base : Nat) (cs : List Char) : Option Nat :=
  if cs.isEmpty then none else cs.foldl (addDigit base) (some 0)

/-- A count (R74): signed decimal, or `0x` hexadecimal read as 32-bit two's complement. Leading zeros are
taken; `+` and a sign before `0x` are not (log entry 18). -/
def parseCount : List Char → Option Int
  | '0' :: 'x' :: cs =>
    match numeral 16 cs with
    | some n => if n < 2 ^ 32 then some (BitVec.ofNat 32 n).toInt else none
    | none => none
  | '-' :: cs => (numeral 10 cs).map fun n => -(n : Int)
  | cs => (numeral 10 cs).map fun n => (n : Int)

/-- A buffer name, spelled exactly as one of `x0` .. `x(NBUF − 1)` (R74): a number with a leading zero, as in
`x01`, is none of these spellings and is refused (log entry 18). -/
def parseBuffer (C : Config.Params) : List Char → Option Index
  | ['x', '0'] => some 0
  | 'x' :: '0' :: _ => none
  | 'x' :: cs =>
    match numeral 10 cs with
    | some n => if n < C.NBUF then some (BitVec.ofNat 8 n) else none
    | none => none
  | _ => none

/-! ### Lines -/

/-- What a mnemonic is applied to: two buffers and a count. -/
def withCount (C : Config.Params) (d s k : List Char) (f : Index → Index → Int → Option Instr) : Option Instr :=
  match parseBuffer C d, parseBuffer C s, parseCount k with
  | some xd, some xs, some c => f xd xs c
  | _, _, _ => none

/-- A mnemonic applied to one buffer (format P). -/
def line1 (C : Config.Params) (mnemonic : String) (s : List Char) : Option Instr :=
  match parseBuffer C s with
  | none => none
  | some xs =>
    match mnemonic with
    | "isneg" => some (.isneg xs)
    | "isnneg" => some (.isnneg xs)
    | "iszero" => some (.iszero xs)
    | _ => none

/-- A mnemonic applied to two buffers (format U, and two pseudo-instructions). -/
def line2 (C : Config.Params) (mnemonic : String) (d s : List Char) : Option Instr :=
  match parseBuffer C d, parseBuffer C s with
  | some xd, some xs =>
    match mnemonic with
    | "not" => some (.not xd xs)
    | "neg" => some (.neg xd xs)
    | "mov" => some (pseudoMov xd xs)
    | "clr" => some (pseudoClr xd xs)
    | _ => none
  | _, _ => none

/-- A mnemonic applied to three buffers (format B). -/
def line3 (C : Config.Params) (mnemonic : String) (d s t : List Char) : Option Instr :=
  match parseBuffer C d, parseBuffer C s, parseBuffer C t with
  | some xd, some x1, some x2 =>
    match mnemonic with
    | "and" => some (.and xd x1 x2)
    | "or" => some (.or xd x1 x2)
    | "xor" => some (.xor xd x1 x2)
    | "add" => some (.add xd x1 x2)
    | "sub" => some (.sub xd x1 x2)
    | "mul" => some (.mul xd x1 x2)
    | "div" => some (.div xd x1 x2)
    | "rem" => some (.rem xd x1 x2)
    | _ => none
  | _, _, _ => none

/-- A mnemonic applied to two buffers and a count (format S, and five pseudo-instructions). -/
def lineCount (C : Config.Params) (mnemonic : String) (d s k : List Char) : Option Instr :=
  withCount C d s k fun xd xs c =>
    match mnemonic with
    | "ash" => (countField c).map (.ash xd xs)
    | "lsh" => (countField c).map (.lsh xd xs)
    | "csh" => (countField c).map (.csh xd xs)
    | "mask" => (countField c).map (.mask xd xs)
    | "shl" => pseudoShl xd xs c
    | "shr" => pseudoShr xd xs c
    | "sar" => pseudoSar xd xs c
    | "rol" => pseudoRol xd xs c
    | "ror" => pseudoRor xd xs c
    | _ => none

/-- A mnemonic applied to four buffers (format D): quotient, remainder, dividend, divisor. -/
def line4 (C : Config.Params) (mnemonic : String) (q m s t : List Char) : Option Instr :=
  match parseBuffer C q, parseBuffer C m, parseBuffer C s, parseBuffer C t with
  | some xq, some xr, some x1, some x2 =>
    match mnemonic with
    | "divrem" => some (.divrem xq xr x1 x2)
    | _ => none
  | _, _, _, _ => none

/-- The instruction that one line of assembly text spells (R74, R75); none where it is no such line. -/
def assemble (C : Config.Params) (line : List Char) : Option Instr :=
  let body := trim line
  let mnemonic := String.ofList (body.takeWhile (· ≠ ' '))
  match (splitAt ',' (body.dropWhile (· ≠ ' '))).map trim with
  | [s] => line1 C mnemonic s
  | [d, s] => line2 C mnemonic d s
  | [d, s, t] =>
    match line3 C mnemonic d s t with
    | some i => some i
    | none => lineCount C mnemonic d s t
  | [q, m, s, t] => line4 C mnemonic q m s t
  | _ => none

/-- The request word of a line of assembly text (R74, R76). -/
def assembleWord (C : Config.Params) (line : List Char) : Option Request := (assemble C line).map encode

/-- The host's line that issues the request a line of assembly text spells. -/
def issueLine (line : List Char) : Option (HostStep Config.W) := (assembleWord Config.reference line).map .issue

end Sys2Proof.Machine
end

