-- ==== Sys2Proof/Machine/Ports.lean ====
section
/-!
DEFINITION. The port-level view of the same core (30_encoding.md R73), for every word length of 2 or more (R5). It is
combinational: it keeps no state, and no step goes through it.
-/

namespace Sys2Proof.Machine

/-- The input ports. -/
structure PortsIn (W : Nat) where
  opsel : BitVec 5
  a : BitVec W
  b : BitVec W
  cnt : Count
  deriving DecidableEq, Repr

/-- The output ports. -/
structure PortsOut (W : Nat) where
  y : BitVec W
  y2 : BitVec W
  pred : Bool
  deriving DecidableEq, Repr

/-- The outputs the core drives with its result; an output the operation does not define carries an
unspecified value, taken from Config for this observation (R73, D23). -/
def drive {W : Nat} (observation : Nat) : Result W → PortsOut W
  | .pred p => { y := Config.portY W observation, y2 := Config.portY2 W observation, pred := p }
  | .one v => { y := v, y2 := Config.portY2 W observation, pred := Config.portPred observation }
  | .two q m => { y := q, y2 := m, pred := Config.portPred observation }

/-- The outputs under the given inputs. `OPSEL` selects through the opcode map of R64; under a reserved
value no output is defined. -/
def portView {W : Nat} [W.AtLeastTwo] (observation : Nat) (i : PortsIn W) : PortsOut W :=
  match opcodeMap i.opsel.toNat 0 0 0 0 i.cnt with
  | some (_, op) => drive observation (coreResult op i.a i.b)
  | none =>
    { y := Config.portY W observation, y2 := Config.portY2 W observation, pred := Config.portPred observation }

end Sys2Proof.Machine
end

