-- ==== Sys2Proof/Safety.lean ====
section
/-!
DEFINITION. The terms claims use: the move a step makes, a finished run and a faulted one (10_state.md R29,
60_exceptions.md R245, D22), the states a run reaches, and what it means that the fault latch is sound.
-/

namespace Sys2Proof.Machine

/-- The host is at a `HostIssue` that has no step because `F` holds a value (R245). -/
def State.blocked (s : State) : Prop := s.block.fault.isSome = true ∧ ∃ r, s.prog[s.hpc]? = some (.issue r)

/-- The step at `s` makes the move `m`: its program has it at `hpc`, or the program's request has no step and
`m` is the next move the host plans for that (log entry 19). -/
def State.makes (s : State) (m : HostMove Config.W) : Prop :=
  s.prog[s.hpc]? = some (.move m) ∨ (s.blocked ∧ s.afterFault.head? = some m)

/-- No fault is recorded (R245). -/
def State.unfaulted (s : State) : Prop := s.block.fault = none

/-- The run has ended: `hpc = len` and `F` holds no value (R29). -/
def State.finished (s : State) : Prop := s.hpc = s.prog.length ∧ s.unfaulted

/-- The run has faulted; it is never a finished one (R245, D22). -/
def State.faulted (s : State) : Prop := s.block.fault.isSome = true

/-- The fault latch of a block holds only what the request layer could have put there: a cause that decoding
the recorded word gives, or an unwritten read of a word that decodes (R70, R71, R244). -/
def Block.latchSound {C : Config.Params} (b : Block C) : Prop :=
  ∀ k r, b.fault = some (k, r) →
    decode C r = .error k ∨ (k = .unwrittenRead ∧ ∃ i, decode C r = .ok i)

/-- The states that steps of the machine reach from `s`. -/
inductive Reaches (s : State) : State → Prop where
  | here : Reaches s s
  | more {t u : State} : Reaches s t → step t = .next u → Reaches s u

end Sys2Proof.Machine
end

