-- ==== Sys2Proof/Certificates/Slice0/Obligations.lean ====
section
/-!
DEFINITION. The statements for the provers, and the words they are written in. Statements about the core
functions hold for every word length `W ≥ 2`; statements about the machine are on the reference instance, whose
step is that of the machine of every instance (ExecIsTheRequestLayer).
-/

namespace Sys2Proof.Machine

/-! ### The words the statements use -/

/-- `t` is `s` after a completed request whose only effect on the block is `x[rd] <- v`: every other buffer,
`P`, `F`, the host's program, its planned moves and what it has read are unchanged, and `hpc` has advanced by 1. -/
def WroteBuffer (s t : State) (rd : Index) (v : Word) : Prop :=
  t.block.read rd.toNat = some v ∧ (∀ j, j ≠ rd.toNat → t.block.read j = s.block.read j) ∧
  t.block.p = s.block.p ∧ t.block.fault = s.block.fault ∧
  t.hpc = s.hpc + 1 ∧ t.prog = s.prog ∧ t.afterFault = s.afterFault ∧ t.reads = s.reads

/-- As `WroteBuffer`, for the two destinations of `divrem`. -/
def WroteTwoBuffers (s t : State) (rd rd2 : Index) (q m : Word) : Prop :=
  t.block.read rd.toNat = some q ∧ t.block.read rd2.toNat = some m ∧
  (∀ j, j ≠ rd.toNat → j ≠ rd2.toNat → t.block.read j = s.block.read j) ∧
  t.block.p = s.block.p ∧ t.block.fault = s.block.fault ∧
  t.hpc = s.hpc + 1 ∧ t.prog = s.prog ∧ t.afterFault = s.afterFault ∧ t.reads = s.reads

/-- `t` is `s` after a completed request whose only effect on the block is `P <- v`. -/
def LatchedPredicate (s t : State) (v : Bool) : Prop :=
  t.block.p = some v ∧ (∀ j, t.block.read j = s.block.read j) ∧ t.block.fault = s.block.fault ∧
  t.hpc = s.hpc + 1 ∧ t.prog = s.prog ∧ t.afterFault = s.afterFault ∧ t.reads = s.reads

/-- `t` is `s` after fault entry for cause `k` and request word `r` (60_exceptions.md R244): only `F` is
written, and `hpc` does not advance. -/
def FaultEntered (s t : State) (k : Cause) (r : Request) : Prop :=
  t.block.fault = some (k, r) ∧ (∀ j, t.block.read j = s.block.read j) ∧ t.block.p = s.block.p ∧
  t.hpc = s.hpc ∧ t.prog = s.prog ∧ t.afterFault = s.afterFault ∧ t.reads = s.reads

/-- The request word of `i` spells it: with the fixed bits `mask` of its format it reads as OP value `op`
and every other fixed bit zero (30_encoding.md R63), and the decoder reads `i` back from it. -/
def Spells (i : Instr) (mask : Request) (op : Nat) : Prop :=
  encode i &&& mask = BitVec.ofNat 64 op ∧ decode Config.reference (encode i) = .ok i

/-! #### The causes of 60_exceptions.md R242, read off the bits of the request word by the tables of R63 and R64 -/

/-- OP is defined (R64). -/
def definedOp (r : Request) : Bool := decide (1 ≤ r.toNat % 32) && decide (r.toNat % 32 ≤ 0x12)

/-- The format of the word's OP uses RD: every format but P, the format of OP `0x01` to `0x03`. -/
def usesRd (r : Request) : Bool := decide (4 ≤ r.toNat % 32)

/-- The format of the word's OP uses RS2: formats B and D. -/
def usesRs2 (r : Request) : Bool :=
  [0x08, 0x09, 0x0A, 0x0D, 0x0E, 0x0F, 0x10, 0x11, 0x12].contains (r.toNat % 32)

/-- The word's OP has format S, so that X is a count. -/
def usesCount (r : Request) : Bool := [0x04, 0x05, 0x06, 0x07].contains (r.toNat % 32)

/-- The word's OP is `divrem`, the operation of format D, so that X[7:0] is RD2. -/
def usesRd2 (r : Request) : Bool := r.toNat % 32 == 0x10

/-- `uint(r[8·n+7 : 8·n])`, byte `n` of the word. -/
def byteAt (r : Request) (n : Nat) : Nat := r.toNat / 2 ^ (8 * n) % 256

/-- A bit that the word's format requires to be zero is 1 (R63, R66). -/
def fieldBitSet (r : Request) : Bool :=
  r.toNat / 32 % 8 != 0 || (!usesRd r && byteAt r 1 != 0) || (!usesRs2 r && byteAt r 3 != 0) ||
  (usesRd2 r && r.toNat / 2 ^ 40 != 0) || (!usesRd2 r && !usesCount r && r.toNat / 2 ^ 32 != 0)

/-- A buffer index that the word's format uses is `NBUF` or more (R67). -/
def indexOutside (C : Config.Params) (r : Request) : Bool :=
  (usesRd r && decide (C.NBUF ≤ byteAt r 1)) || decide (C.NBUF ≤ byteAt r 2) ||
  (usesRs2 r && decide (C.NBUF ≤ byteAt r 3)) || (usesRd2 r && decide (C.NBUF ≤ byteAt r 4))

/-- The word is a `divrem` with one destination for both results (R68). -/
def sameDestinations (r : Request) : Bool := usesRd2 r && byteAt r 1 == byteAt r 4

/-- A buffer that the word's format reads holds no value (R71). -/
def sourceUnwritten {C : Config.Params} (b : Block C) (r : Request) : Bool :=
  (b.read (byteAt r 2)).isNone || (usesRs2 r && (b.read (byteAt r 3)).isNone)

/-- The first cause that applies, in the order of R243; none where the request is legal. -/
def firstCause {C : Config.Params} (b : Block C) (r : Request) : Option Cause :=
  if !definedOp r then some .reservedOp
  else if fieldBitSet r then some .reservedField
  else if indexOutside C r then some .indexRange
  else if sameDestinations r then some .destConflict
  else if sourceUnwritten b r then some .unwrittenRead
  else none

/-- The buffers an instruction writes (20_memory.md R44). -/
def destinations : Instr → List Nat
  | .isneg _ | .isnneg _ | .iszero _ => []
  | .ash rd _ _ | .lsh rd _ _ | .csh rd _ _ | .mask rd _ _ | .not rd _ | .neg rd _ => [rd.toNat]
  | .and rd _ _ | .or rd _ _ | .xor rd _ _ | .add rd _ _ | .sub rd _ _ | .mul rd _ _ | .div rd _ _ | .rem rd _ _ =>
    [rd.toNat]
  | .divrem rd rd2 _ _ => [rd.toNat, rd2.toNat]

/-- The buffers an instruction reads (R44). -/
def sources : Instr → List Nat
  | .isneg rs1 | .isnneg rs1 | .iszero rs1 => [rs1.toNat]
  | .ash _ rs1 _ | .lsh _ rs1 _ | .csh _ rs1 _ | .mask _ rs1 _ | .not _ rs1 | .neg _ rs1 => [rs1.toNat]
  | .and _ rs1 rs2 | .or _ rs1 rs2 | .xor _ rs1 rs2 | .add _ rs1 rs2 | .sub _ rs1 rs2 | .mul _ rs1 rs2
  | .div _ rs1 rs2 | .rem _ rs1 rs2 => [rs1.toNat, rs2.toNat]
  | .divrem _ _ rs1 rs2 => [rs1.toNat, rs2.toNat]

/-- The host's move is made: one line of its program is taken, or one move of those it plans after a fault. -/
def HostGoesOn (s t : State) : Prop :=
  t.prog = s.prog ∧
  ((¬ s.blocked ∧ t.hpc = s.hpc + 1 ∧ t.afterFault = s.afterFault) ∨
   (s.blocked ∧ t.hpc = s.hpc ∧ t.afterFault = s.afterFault.tail))

/-- The instruction is one of the three predicates, the only ones that write `P` (R25, R44). -/
def writesP : Instr → Bool
  | .isneg _ | .isnneg _ | .iszero _ => true
  | _ => false

end Sys2Proof.Machine

open Sys2Proof Sys2Proof.Machine

/-! ### Encoding -/

/-- Every well-formed instruction, with every operand at every value its fields admit, on every
instance: decoding its request word gives it back (30_encoding.md R70, R76). -/
def Obligations.DecodeOfEncodeIsIdentity : Prop :=
  ∀ (C : Config.Params) (i : Instr), i.wf C = true → decode C (encode i) = .ok i

/-- A word that decodes is the request word of what it decodes to, which is well-formed: so every word spells
at most one operation, and one operation has one word (R69). -/
def Obligations.DecodedWordIsItsEncoding : Prop :=
  ∀ (C : Config.Params) (r : Request) (i : Instr), decode C r = .ok i → encode i = r ∧ i.wf C = true

/-- The worked encodings of R76 and of 95_test_vectors.md L2.7, each word as the spec prints it. -/
def Obligations.WorkedEncodingsDecode : Prop :=
  decodeTableWord 64 0x000000000201030D = some (.add 3 1 2) ∧
  decodeTableWord 64 0xFFFFFFFF00010204 = some (.ash 2 1 (-1)) ∧
  decodeTableWord 64 0x0000000402010310 = some (.divrem 3 4 1 2) ∧
  decodeTableWord 64 0x0000000000050001 = some (.isneg 5) ∧
  decodeTableWord 64 0x0000000100010307 = some (.mask 3 1 1) ∧
  decodeTableWord 64 0xFFFFFFFF00010105 = some (.lsh 1 1 (-1)) ∧
  decodeTableWord 64 0x0000000400010206 = some (.csh 2 1 4) ∧
  decodeTableWord 64 0x000000000001070B = some (.not 7 1)

/-- The index fields are unsigned bytes of the word at their places, neither scaled nor offset (R61). -/
def Obligations.IndexFieldsAreUnsignedBytes : Prop :=
  ∀ r : Request,
    r.rd.toNat = r.toNat / 2 ^ 8 % 256 ∧ r.rs1.toNat = r.toNat / 2 ^ 16 % 256 ∧
    r.rs2.toNat = r.toNat / 2 ^ 24 % 256 ∧ r.rd2.toNat = r.toNat / 2 ^ 32 % 256

/-- The count of format S is the two's-complement reading of X = r[63:32] (R62), an integer in
[−2^31, 2^31 − 1]. The amounts that the operations make of it use its exact magnitude: for the field value
`0x80000000` that is 2^31 (R6). -/
def Obligations.CountIsTwosComplementOfX : Prop :=
  ∀ r : Request,
    countOf r.count = (if r.toNat / 2 ^ 32 < 2 ^ 31 then ((r.toNat / 2 ^ 32 : Nat) : Int)
      else ((r.toNat / 2 ^ 32 : Nat) : Int) - 2 ^ 32) ∧
    -(2 ^ 31) ≤ countOf r.count ∧ countOf r.count ≤ 2 ^ 31 - 1 ∧
    (r.count = 0x80000000 → countOf r.count = -(2 ^ 31) ∧ ∀ W : Nat, 2 ≤ W →
      shiftAmount W (countOf r.count) = min (2 ^ 31) (W - 1) ∧
      maskAmount W (countOf r.count) = min (2 ^ 31) W ∧ rotateAmount W (countOf r.count) = 2 ^ 31 % W)

/-- A request word listed as bytes, least significant first (20_memory.md R42), decodes as the word does,
and the bytes after it are left. -/
def Obligations.ByteListingDecodesAsTheWord : Prop :=
  ∀ (C : Config.Params) (r : Request) (rest : List Byte),
    decodeBytes C (r.toBytes ++ rest) = some (decode C r, rest)

/-- The pseudo-instructions (R75): `mov` copies, `clr` clears, both in one request; the five shift and rotate
forms give one request with the count the table names, exactly under its condition on `k`. That a line outside
the condition spells nothing is the model's (log entry 18). -/
def Obligations.PseudoInstructionsExpand : Prop :=
  (∀ (xd xs : Index) (a : Word) (s : State), xd.toNat < Config.NBUF → xs.toNat < Config.NBUF →
    s.block.fault = none → s.block.read xs.toNat = some a →
    pseudoMov xd xs = .or xd xs xs ∧ pseudoClr xd xs = .xor xd xs xs ∧
    (∃ t, exec (pseudoMov xd xs) s = .next t ∧ WroteBuffer s t xd a) ∧
    (∃ t, exec (pseudoClr xd xs) s = .next t ∧ WroteBuffer s t xd (zeroWord Config.W))) ∧
  (∀ (xd xs : Index) (k : Int),
    (0 ≤ k ∧ k ≤ 2 ^ 31 - 1 → ∃ c : Count, countOf c = k ∧
      pseudoShl xd xs k = some (.lsh xd xs c) ∧ pseudoRol xd xs k = some (.csh xd xs c)) ∧
    (¬(0 ≤ k ∧ k ≤ 2 ^ 31 - 1) → pseudoShl xd xs k = none ∧ pseudoRol xd xs k = none) ∧
    (0 ≤ k ∧ k ≤ 2 ^ 31 → ∃ c : Count, countOf c = -k ∧
      pseudoShr xd xs k = some (.lsh xd xs c) ∧ pseudoSar xd xs k = some (.ash xd xs c) ∧
      pseudoRor xd xs k = some (.csh xd xs c)) ∧
    (¬(0 ≤ k ∧ k ≤ 2 ^ 31) →
      pseudoShr xd xs k = none ∧ pseudoSar xd xs k = none ∧ pseudoRor xd xs k = none))

/-! ### Illegal requests -/

/-- A request with a reserved OP is not performed: it latches `RESERVED_OP` and changes nothing else (R65). -/
def Obligations.ReservedOpIsIllegal : Prop :=
  ∀ (s : State) (r : Request), s.prog[s.hpc]? = some (.issue r) → s.block.fault = none →
    (r.toNat % 32 = 0 ∨ 0x13 ≤ r.toNat % 32) →
    ∃ t, step s = .next t ∧ FaultEntered s t .reservedOp r

/-- A request with a defined OP and a 1 where its format requires 0 is not performed: it latches
`RESERVED_FIELD` and changes nothing else, whatever its indices are (R66). -/
def Obligations.ReservedFieldIsIllegal : Prop :=
  ∀ (s : State) (r : Request), s.prog[s.hpc]? = some (.issue r) → s.block.fault = none →
    definedOp r = true → fieldBitSet r = true →
    ∃ t, step s = .next t ∧ FaultEntered s t .reservedField r

/-- A request of a legal form that uses an index of `NBUF` or more is not performed: it latches
`INDEX_RANGE` and changes nothing else. With 256 buffers no word decodes to that cause (R67). -/
def Obligations.IndexRangeIsIllegal : Prop :=
  (∀ (s : State) (r : Request), s.prog[s.hpc]? = some (.issue r) → s.block.fault = none →
    definedOp r = true → fieldBitSet r = false → indexOutside Config.reference r = true →
    ∃ t, step s = .next t ∧ FaultEntered s t .indexRange r) ∧
  (∀ (C : Config.Params) (r : Request), C.NBUF = 256 → decode C r ≠ .error .indexRange)

/-- A `divrem` with `rd = rd2` is not performed: it latches `DEST_CONFLICT` and changes nothing else, whether
or not its sources hold a value (R68). That `exec` of the ill-formed instruction is what its request word gives is
the model's (log entry 12). -/
def Obligations.DestConflictIsIllegal : Prop :=
  ∀ (rd rs1 rs2 : Index) (s : State), s.block.fault = none →
    rd.toNat < Config.NBUF → rs1.toNat < Config.NBUF → rs2.toNat < Config.NBUF →
    (∃ t, exec (.divrem rd rd rs1 rs2) s = .next t ∧ FaultEntered s t .destConflict (encode (.divrem rd rd rs1 rs2))) ∧
    (s.prog[s.hpc]? = some (.issue (encode (.divrem rd rd rs1 rs2))) →
      ∃ t, step s = .next t ∧ FaultEntered s t .destConflict (encode (.divrem rd rd rs1 rs2)))

/-- Any well-formed instruction with a source that holds no value latches `UNWRITTEN_READ` and changes
nothing else: no word stands in for the missing one (10_state.md R24; R71). -/
def Obligations.UnwrittenSourceIsIllegal : Prop :=
  ∀ (i : Instr) (s : State), i.WellFormed → s.block.fault = none →
    (∃ j ∈ sources i, s.block.read j = none) →
    ∃ t, exec i s = .next t ∧ FaultEntered s t .unwrittenRead (encode i)

/-- The cause reported is the first that applies, in the order RESERVED_OP, RESERVED_FIELD, INDEX_RANGE,
DEST_CONFLICT, UNWRITTEN_READ, and fault entry writes only `F` (60_exceptions.md R243, R244). -/
def Obligations.FirstCauseThatAppliesIsLatched : Prop :=
  ∀ (s : State) (r : Request), s.prog[s.hpc]? = some (.issue r) → s.block.fault = none →
    ∀ k, firstCause s.block r = some k → ∃ t, step s = .next t ∧ FaultEntered s t k r

/-- Only an illegal request sets the fault latch, and fault entry is precise: every buffer, `P` and `hpc` are
as before, the word recorded is the one issued, and the cause is the first that applies to it (R244, R243). -/
def Obligations.FaultEntryIsPrecise : Prop :=
  ∀ (s t : State) (k : Cause) (r : Request), step s = .next t → s.block.fault = none →
    t.block.fault = some (k, r) →
    s.prog[s.hpc]? = some (.issue r) ∧ firstCause s.block r = some k ∧ FaultEntered s t k r

/-- While `F` holds a value the block takes no request, no step but `Reset` clears or changes it, the run is
not a finished one, and the host may still read buffers, `P` and `F` (R245). How the host comes to a move while
its program is at a request is the model's (log entry 19). -/
def Obligations.FaultLatchBlocksUntilReset : Prop :=
  ∀ (s : State), s.block.fault.isSome = true →
    (∀ r, s.hostIssue r = .refused .faultLatched) ∧
    (∀ i, exec i s = .refused .faultLatched) ∧
    (∀ t, step s = .next t → ¬ s.makes .reset → t.block.fault = s.block.fault) ∧
    (∀ t, step s = .next t → s.makes .reset → t.block.fault = none) ∧
    ¬ s.finished ∧
    (∀ i, i < Config.NBUF → s.makes (.read i) → ∃ t, step s = .next t ∧ t.block = s.block) ∧
    (s.makes .readP → ∃ t, step s = .next t ∧ t.block = s.block) ∧
    (s.makes .readF → ∃ t, step s = .next t ∧ t.block = s.block)

/-- The fault latch only ever holds what the request layer could have put there: every step keeps it so,
in every state, reachable or not. -/
def Obligations.EveryStepKeepsTheLatchSound : Prop :=
  ∀ s t : State, s.block.latchSound → step s = .next t → t.block.latchSound

/-- The latch invariant holds at reset. -/
def Obligations.ResetLatchIsSound : Prop := State.reset.block.latchSound

/-! ### Reset and the host's moves -/

/-- Reset (70_reset_and_hazards.md R270), as the state after reset and as a move, always allowed: no buffer,
`P` or `F` holds a value, and `hpc` is 0. No other move clears `F`. How the host comes to the move after a fault is
the model's (log entry 19). -/
def Obligations.ResetLeavesNoValue : Prop :=
  ((∀ j, State.reset.block.read j = none) ∧ State.reset.block.p = none ∧ State.reset.block.fault = none ∧
    State.reset.hpc = 0) ∧
  (∀ s : State, s.makes .reset →
    ∃ t, step s = .next t ∧ (∀ j, t.block.read j = none) ∧ t.block.p = none ∧ t.block.fault = none ∧ t.hpc = 0) ∧
  (∀ s t : State, step s = .next t → s.block.fault.isSome = true → t.block.fault = none →
    s.makes .reset)

/-- `HostWrite(i, v)` with `i < NBUF` stores the word and changes nothing else of the block, whether or not
`F` holds a value; no other `i` is allowed (20_memory.md R55). What it does to the host and the name of the
fault are the model's (log entries 11, 13 and 19). -/
def Obligations.HostWriteStoresTheWord : Prop :=
  ∀ (s : State) (i : Nat) (v : Word), s.makes (.write i v) →
    (i < Config.NBUF → ∃ t, step s = .next t ∧ t.block.read i = some v ∧
      (∀ j, j ≠ i → t.block.read j = s.block.read j) ∧ t.block.p = s.block.p ∧ t.block.fault = s.block.fault ∧
      HostGoesOn s t ∧ t.reads = s.reads) ∧
    (Config.NBUF ≤ i → step s = .fault (.noSuchBuffer i))

/-- The host's three reads return what they read and change nothing of the block, whether or not `F` holds a
value (20_memory.md R47, R55). The list of returned values, what a read does to the host's program and plan, and
the name of the fault are the model's (log entries 6, 11, 13 and 19). -/
def Obligations.HostReadsHaveNoSideEffect : Prop :=
  ∀ s : State,
    (∀ i, s.makes (.read i) → i < Config.NBUF → ∃ t, step s = .next t ∧ t.block = s.block ∧ HostGoesOn s t ∧
      t.reads = s.reads ++ [.buffer i (s.block.read i)]) ∧
    (∀ i, s.makes (.read i) → Config.NBUF ≤ i → step s = .fault (.noSuchBuffer i)) ∧
    (s.makes .readP → ∃ t, step s = .next t ∧ t.block = s.block ∧ HostGoesOn s t ∧
      t.reads = s.reads ++ [.predicate s.block.p]) ∧
    (s.makes .readF → ∃ t, step s = .next t ∧ t.block = s.block ∧ HostGoesOn s t ∧
      t.reads = s.reads ++ [.faultLatch s.block.fault])

/-- The host's own lines set `hpc` and change nothing of the block; past the end of its program nothing
changes; and at a request that has no step the host makes the next move it plans, or has no step where it plans
none (30_encoding.md R77, 60_exceptions.md R245, R253; log entries 4, 6, 9, 14 and 19). -/
def Obligations.HostLinesAndPlannedMoves : Prop :=
  ∀ s : State,
    (∀ line, s.prog[s.hpc]? = some (.goto line) → step s = .next { s with hpc := line }) ∧
    (∀ yes no b, s.prog[s.hpc]? = some (.branchP yes no) → s.block.p = some b →
      ∃ t, step s = .next t ∧ t.block = s.block ∧ t.prog = s.prog ∧ t.hpc = if b then yes else no) ∧
    (∀ yes no, s.prog[s.hpc]? = some (.branchP yes no) → s.block.p = none →
      ∃ t, step s = .next t ∧ t.block = s.block ∧ t.prog = s.prog) ∧
    (s.prog[s.hpc]? = some .ownRule → ∃ t, step s = .next t ∧ t.block = s.block ∧ t.prog = s.prog) ∧
    (s.prog[s.hpc]? = none → step s = .next s) ∧
    (s.blocked → s.afterFault = [] → step s = .refused .faultLatched) ∧
    (s.blocked → ∀ m rest, s.afterFault = m :: rest →
      step s = ({ s with afterFault := rest } : State).makeMove m)

/-- A step at a line that issues a word which decodes to `i` is `exec` of `i` at that state: nothing is
added around it. Only where `F` holds a value, and the request so has no step, may the host make another move
that it plans instead (log entry 19; HostLinesAndPlannedMoves). -/
def Obligations.StepRunsTheDecodedInstruction : Prop :=
  ∀ (s : State) (r : Request) (i : Instr), s.prog[s.hpc]? = some (.issue r) → decode Config.reference r = .ok i →
    (s.block.fault = none ∨ s.afterFault = []) → step s = exec i s

/-! ### Whole-machine rules -/

/-- The machine's `exec` is the request layer of 30_encoding.md R71 on the instruction's request word, for every
instruction, well-formed or not, and every state; `HostIssue` is that request layer on the word; and so the
machine's step is the step of the machine of every instance, taken at the reference instance. That an ill-formed instruction stands for its request word is the model's (log entry
12). -/
def Obligations.ExecIsTheRequestLayer : Prop :=
  (∀ (i : Instr) (s : State), exec i s = s.settle (s.block.performWord (encode i))) ∧
  (∀ (r : Request) (s : State), State.hostIssue r s = s.settle (s.block.performWord r)) ∧
  (∀ s : State, step s = ForInstance.State.step s)

/-- The frame of every instruction: where `exec` answers a next state, either the instruction completed, and
then only its destinations and, for a predicate, `P` may have changed, and `hpc` advanced by 1; or it entered
the fault, and then only `F` changed. The host's program, its plan and what it has read never change. An ill-formed
instruction enters the fault of its request word (log entry 12). -/
def Obligations.EveryInstructionKeepsItsFrame : Prop :=
  ∀ (i : Instr) (s t : State), exec i s = .next t →
    ((t.block.fault = none ∧ t.hpc = s.hpc + 1 ∧ t.prog = s.prog ∧ t.afterFault = s.afterFault ∧
      t.reads = s.reads ∧
      (∀ j, j ∉ destinations i → t.block.read j = s.block.read j) ∧
      (writesP i = false → t.block.p = s.block.p)) ∨
     ∃ k, FaultEntered s t k (encode i))

/-- Every instruction completes where its operands are readable: it is well-formed, `F` holds no value and
every source holds a word. It then writes each of its destinations or, for a predicate, `P`. And an issued
request to which no cause of R242 applies completes. -/
def Obligations.EveryInstructionCompletes : Prop :=
  (∀ (i : Instr) (s : State), i.WellFormed → s.block.fault = none →
    (∀ j ∈ sources i, ∃ v, s.block.read j = some v) →
    ∃ t, exec i s = .next t ∧ t.block.fault = none ∧ t.hpc = s.hpc + 1 ∧
      (∀ j ∈ destinations i, ∃ v, t.block.read j = some v) ∧ (writesP i = true → ∃ v, t.block.p = some v)) ∧
  (∀ (s : State) (r : Request), s.prog[s.hpc]? = some (.issue r) → s.block.fault = none →
    firstCause s.block r = none → ∃ t, step s = .next t ∧ t.block.fault = none ∧ t.hpc = s.hpc + 1)

/-- The result of an operation depends only on its operand words, its count and the constants (10_state.md
R20): two states whose blocks agree on the sources of `i` get the same destinations, or the same `P`. -/
def Obligations.ResultDependsOnlyOnOperands : Prop :=
  ∀ (i : Instr) (s s' t t' : State), exec i s = .next t → exec i s' = .next t' →
    (∀ j ∈ sources i, s.block.read j = s'.block.read j) → t.block.fault = none →
    t'.block.fault = none ∧ (∀ j ∈ destinations i, t.block.read j = t'.block.read j) ∧
    (writesP i = true → t.block.p = t'.block.p)

/-- Only the predicates and reset change the predicate latch (R25). -/
def Obligations.OnlyPredicatesWriteP : Prop :=
  ∀ s t : State, step s = .next t → t.block.p ≠ s.block.p →
    s.makes .reset ∨
    ∃ r i, s.prog[s.hpc]? = some (.issue r) ∧ decode Config.reference r = .ok i ∧ writesP i = true

/-- Only the destination write of a request, a host write and reset change a buffer (R23). -/
def Obligations.OnlyDestinationsAndHostWritesChangeBuffers : Prop :=
  ∀ (s t : State) (j : Nat), step s = .next t → t.block.read j ≠ s.block.read j →
    s.makes .reset ∨ (∃ v, s.makes (.write j v)) ∨
    ∃ r i, s.prog[s.hpc]? = some (.issue r) ∧ decode Config.reference r = .ok i ∧ j ∈ destinations i

/-- A buffer or `P` that holds a value goes on holding one in every step but reset. -/
def Obligations.WrittenStateStaysWritten : Prop :=
  ∀ s t : State, step s = .next t → ¬ s.makes .reset →
    (∀ j, (s.block.read j).isSome = true → (t.block.read j).isSome = true) ∧
    (s.block.p.isSome = true → t.block.p.isSome = true)

/-! ### Results, operation by operation. Each gives the next state for every well-formed operand form,
sources and destination equal or not, and so its frame. -/

/-- R100: `P <- (bit(a, TOP) == 1)`. -/
def Obligations.IsnegLatchesTheSignBit : Prop :=
  ∀ (rs1 : Index) (a : Word) (s : State), Instr.WellFormed (.isneg rs1) → s.block.fault = none →
    s.block.read rs1.toNat = some a →
    Spells (.isneg rs1) 0xFFFFFFFFFF00FFFF 0x01 ∧
    ∃ t, exec (.isneg rs1) s = .next t ∧ LatchedPredicate s t (a.getLsbD (Config.W - 1))

/-- R101: `P <- (bit(a, TOP) == 0)`, the complement of `isneg`. -/
def Obligations.IsnnegLatchesTheComplementedSignBit : Prop :=
  ∀ (rs1 : Index) (a : Word) (s : State), Instr.WellFormed (.isnneg rs1) → s.block.fault = none →
    s.block.read rs1.toNat = some a →
    Spells (.isnneg rs1) 0xFFFFFFFFFF00FFFF 0x02 ∧
    ∃ t, exec (.isnneg rs1) s = .next t ∧ LatchedPredicate s t (!a.getLsbD (Config.W - 1))

/-- R102: `P` is true iff every bit from 0 to the top index is 0. -/
def Obligations.IszeroLatchesWhetherAllBitsAreZero : Prop :=
  ∀ (rs1 : Index) (a : Word) (s : State), Instr.WellFormed (.iszero rs1) → s.block.fault = none →
    s.block.read rs1.toNat = some a →
    Spells (.iszero rs1) 0xFFFFFFFFFF00FFFF 0x03 ∧
    ∃ t p, exec (.iszero rs1) s = .next t ∧ LatchedPredicate s t p ∧
      (p = true ↔ ∀ i, i ≤ Config.W - 1 → a.getLsbD i = false)

/-- R111, bit by bit, with `k = min(|c|, W − 1)`: a left shift fills with 0, a right shift with the sign bit,
and a count of 0 leaves the word. -/
def Obligations.AshShiftsArithmetically : Prop :=
  ∀ (rd rs1 : Index) (count : Count) (a : Word) (s : State), Instr.WellFormed (.ash rd rs1 count) →
    s.block.fault = none → s.block.read rs1.toNat = some a →
    Spells (.ash rd rs1 count) 0x00000000FF0000FF 0x04 ∧
    ∃ t y, exec (.ash rd rs1 count) s = .next t ∧ WroteBuffer s t rd y ∧
      ∀ i, i < Config.W → y.getLsbD i =
        if 0 < count.toInt then
          (if min count.toInt.natAbs (Config.W - 1) ≤ i
            then a.getLsbD (i - min count.toInt.natAbs (Config.W - 1)) else false)
        else if count.toInt < 0 then
          (if i + min count.toInt.natAbs (Config.W - 1) ≤ Config.W - 1
            then a.getLsbD (i + min count.toInt.natAbs (Config.W - 1)) else a.getLsbD (Config.W - 1))
        else a.getLsbD i

/-- R112, bit by bit, with `k = min(|c|, W − 1)`: vacated bits are 0 in both directions, whatever the sign. -/
def Obligations.LshShiftsLogically : Prop :=
  ∀ (rd rs1 : Index) (count : Count) (a : Word) (s : State), Instr.WellFormed (.lsh rd rs1 count) →
    s.block.fault = none → s.block.read rs1.toNat = some a →
    Spells (.lsh rd rs1 count) 0x00000000FF0000FF 0x05 ∧
    ∃ t y, exec (.lsh rd rs1 count) s = .next t ∧ WroteBuffer s t rd y ∧
      ∀ i, i < Config.W → y.getLsbD i =
        if 0 < count.toInt then
          (if min count.toInt.natAbs (Config.W - 1) ≤ i
            then a.getLsbD (i - min count.toInt.natAbs (Config.W - 1)) else false)
        else if count.toInt < 0 then
          (if i + min count.toInt.natAbs (Config.W - 1) ≤ Config.W - 1
            then a.getLsbD (i + min count.toInt.natAbs (Config.W - 1)) else false)
        else a.getLsbD i

/-- R113, bit by bit, with `k = |c| mod W`: a rotation, and the word itself when `k = 0`. -/
def Obligations.CshRotates : Prop :=
  ∀ (rd rs1 : Index) (count : Count) (a : Word) (s : State), Instr.WellFormed (.csh rd rs1 count) →
    s.block.fault = none → s.block.read rs1.toNat = some a →
    Spells (.csh rd rs1 count) 0x00000000FF0000FF 0x06 ∧
    ∃ t y, exec (.csh rd rs1 count) s = .next t ∧ WroteBuffer s t rd y ∧
      (count.toInt.natAbs % Config.W = 0 → y = a) ∧
      ∀ i, i < Config.W →
        if 0 ≤ count.toInt then y.getLsbD ((i + count.toInt.natAbs % Config.W) % Config.W) = a.getLsbD i
        else y.getLsbD i = a.getLsbD ((i + count.toInt.natAbs % Config.W) % Config.W)

/-- R114, bit by bit, with `k = min(|c|, W)`: the low or the high `k` bits stay, all others are 0, and a
count of 0 keeps none. -/
def Obligations.MaskKeepsTheNamedBits : Prop :=
  ∀ (rd rs1 : Index) (count : Count) (a : Word) (s : State), Instr.WellFormed (.mask rd rs1 count) →
    s.block.fault = none → s.block.read rs1.toNat = some a →
    Spells (.mask rd rs1 count) 0x00000000FF0000FF 0x07 ∧
    ∃ t y, exec (.mask rd rs1 count) s = .next t ∧ WroteBuffer s t rd y ∧
      ∀ i, i < Config.W → y.getLsbD i =
        if 0 < count.toInt then (if i < min count.toInt.natAbs Config.W then a.getLsbD i else false)
        else if count.toInt < 0 then
          (if Config.W - min count.toInt.natAbs Config.W ≤ i then a.getLsbD i else false)
        else false

/-- R140, R141, R142: bitwise AND, OR and exclusive OR at every index independently. -/
def Obligations.AndOrXorCombineBitwise : Prop :=
  ∀ (rd rs1 rs2 : Index) (a b : Word) (s : State), Instr.WellFormed (.and rd rs1 rs2) → s.block.fault = none →
    s.block.read rs1.toNat = some a → s.block.read rs2.toNat = some b →
    (Spells (.and rd rs1 rs2) 0xFFFFFFFF000000FF 0x08 ∧
      ∃ t, exec (.and rd rs1 rs2) s = .next t ∧ WroteBuffer s t rd (a &&& b)) ∧
    (Spells (.or rd rs1 rs2) 0xFFFFFFFF000000FF 0x09 ∧
      ∃ t, exec (.or rd rs1 rs2) s = .next t ∧ WroteBuffer s t rd (a ||| b)) ∧
    (Spells (.xor rd rs1 rs2) 0xFFFFFFFF000000FF 0x0A ∧
      ∃ t, exec (.xor rd rs1 rs2) s = .next t ∧ WroteBuffer s t rd (a ^^^ b))

/-- R143: bitwise complement at every index. -/
def Obligations.NotComplementsBitwise : Prop :=
  ∀ (rd rs1 : Index) (a : Word) (s : State), Instr.WellFormed (.not rd rs1) → s.block.fault = none →
    s.block.read rs1.toNat = some a →
    Spells (.not rd rs1) 0xFFFFFFFFFF0000FF 0x0B ∧
    ∃ t, exec (.not rd rs1) s = .next t ∧ WroteBuffer s t rd (~~~a)

/-- `neg` writes `word(−uint(a))`: the spec's own derived closed form under R144. `MINW` is its own negation. -/
def Obligations.NegWritesTheNegation : Prop :=
  ∀ (rd rs1 : Index) (a : Word) (s : State), Instr.WellFormed (.neg rd rs1) → s.block.fault = none →
    s.block.read rs1.toNat = some a →
    Spells (.neg rd rs1) 0xFFFFFFFFFF0000FF 0x0C ∧
    ∃ t, exec (.neg rd rs1) s = .next t ∧ WroteBuffer s t rd (BitVec.ofInt Config.W (-(a.toNat : Int)))

/-- `add` writes `word(uint(a) + uint(b)) = word(sint(a) + sint(b))`, also on overflow: the spec's own derived
closed form of R161 (43_add_sub.md section 3). -/
def Obligations.AddWritesTheWrappedSum : Prop :=
  ∀ (rd rs1 rs2 : Index) (a b : Word) (s : State), Instr.WellFormed (.add rd rs1 rs2) → s.block.fault = none →
    s.block.read rs1.toNat = some a → s.block.read rs2.toNat = some b →
    Spells (.add rd rs1 rs2) 0xFFFFFFFF000000FF 0x0D ∧
    ∃ t, exec (.add rd rs1 rs2) s = .next t ∧
      WroteBuffer s t rd (BitVec.ofNat Config.W (a.toNat + b.toNat)) ∧
      WroteBuffer s t rd (BitVec.ofInt Config.W (a.toInt + b.toInt))

/-- `sub` writes `word(uint(a) − uint(b)) = word(sint(a) − sint(b))`: the spec's own derived closed form of
R162 (43_add_sub.md section 3). -/
def Obligations.SubWritesTheWrappedDifference : Prop :=
  ∀ (rd rs1 rs2 : Index) (a b : Word) (s : State), Instr.WellFormed (.sub rd rs1 rs2) → s.block.fault = none →
    s.block.read rs1.toNat = some a → s.block.read rs2.toNat = some b →
    Spells (.sub rd rs1 rs2) 0xFFFFFFFF000000FF 0x0E ∧
    ∃ t, exec (.sub rd rs1 rs2) s = .next t ∧
      WroteBuffer s t rd (BitVec.ofInt Config.W ((a.toNat : Int) - (b.toNat : Int))) ∧
      WroteBuffer s t rd (BitVec.ofInt Config.W (a.toInt - b.toInt))

/-- `mul` writes the low W bits of the product, signed or unsigned: the spec's own derived closed form of R180
(44_multiplier.md, the closed form). -/
def Obligations.MulWritesTheWrappedProduct : Prop :=
  ∀ (rd rs1 rs2 : Index) (a b : Word) (s : State), Instr.WellFormed (.mul rd rs1 rs2) → s.block.fault = none →
    s.block.read rs1.toNat = some a → s.block.read rs2.toNat = some b →
    Spells (.mul rd rs1 rs2) 0xFFFFFFFF000000FF 0x0F ∧
    ∃ t, exec (.mul rd rs1 rs2) s = .next t ∧
      WroteBuffer s t rd (BitVec.ofInt Config.W (a.toInt * b.toInt)) ∧
      WroteBuffer s t rd (BitVec.ofNat Config.W (a.toNat * b.toNat))

/-- `divrem` writes quotient and remainder. By zero it saturates: `MAXW` or `MINW`, remainder `ZERO` (R200 step
1). Otherwise they are the quotient rounded toward zero and the remainder with the dividend's sign, wrapped:
the spec's own derived closed form (45_divider.md section 3). -/
def Obligations.DivremWritesQuotientAndRemainder : Prop :=
  ∀ (rd rd2 rs1 rs2 : Index) (a b : Word) (s : State), Instr.WellFormed (.divrem rd rd2 rs1 rs2) →
    s.block.fault = none → s.block.read rs1.toNat = some a → s.block.read rs2.toNat = some b →
    Spells (.divrem rd rd2 rs1 rs2) 0xFFFFFF00000000FF 0x10 ∧
    ∃ t, exec (.divrem rd rd2 rs1 rs2) s = .next t ∧
      if b = 0 then WroteTwoBuffers s t rd rd2 (if 0 ≤ a.toInt then 0x7FFFFFFF else 0x80000000) 0
      else WroteTwoBuffers s t rd rd2 (BitVec.ofInt Config.W (a.toInt.tdiv b.toInt))
        (BitVec.ofInt Config.W (a.toInt - a.toInt.tdiv b.toInt * b.toInt))

/-- `div` writes the quotient and `rem` the remainder of the same division, and each discards the other
(R202, R203; the values as for `divrem`). -/
def Obligations.DivAndRemWriteOneOfTheTwo : Prop :=
  ∀ (rd rs1 rs2 : Index) (a b : Word) (s : State), Instr.WellFormed (.div rd rs1 rs2) → s.block.fault = none →
    s.block.read rs1.toNat = some a → s.block.read rs2.toNat = some b →
    (Spells (.div rd rs1 rs2) 0xFFFFFFFF000000FF 0x11 ∧
      ∃ t, exec (.div rd rs1 rs2) s = .next t ∧
        if b = 0 then WroteBuffer s t rd (if 0 ≤ a.toInt then 0x7FFFFFFF else 0x80000000)
        else WroteBuffer s t rd (BitVec.ofInt Config.W (a.toInt.tdiv b.toInt))) ∧
    (Spells (.rem rd rs1 rs2) 0xFFFFFFFF000000FF 0x12 ∧
      ∃ t, exec (.rem rd rs1 rs2) s = .next t ∧
        if b = 0 then WroteBuffer s t rd 0
        else WroteBuffer s t rd (BitVec.ofInt Config.W (a.toInt - a.toInt.tdiv b.toInt * b.toInt)))

/-! ### The units, for every word length -/

/-- The distinguished constants bit by bit, and read as numbers (R21). -/
def Obligations.ConstantsHaveTheirBits : Prop :=
  ∀ W : Nat, 2 ≤ W →
    (∀ i, i < W → (zeroWord W).getLsbD i = false ∧ (maxWord W).getLsbD i = decide (i ≠ W - 1) ∧
      (minWord W).getLsbD i = decide (i = W - 1)) ∧
    (zeroWord W).toNat = 0 ∧ (maxWord W).toNat = 2 ^ (W - 1) - 1 ∧ (minWord W).toNat = 2 ^ (W - 1) ∧
    (zeroWord W).toInt = 0 ∧ (maxWord W).toInt = 2 ^ (W - 1) - 1 ∧ (minWord W).toInt = -(2 ^ (W - 1))

/-- The ripple-carry chain (R160): some carries, the first of them the carry in, go from each bit position to
the next; at each position the low bit of the sum of the two bits and the carry is the result bit and the
high bit is the carry out. -/
def Obligations.RippleCarryChainStepsBitByBit : Prop :=
  ∀ (W : Nat) (a b : BitVec W) (cin : Bool), ∃ carry : Nat → Nat, carry 0 = cin.toNat ∧
    ∀ i, i < W →
      ((addRc a b cin).getLsbD i).toNat = ((a.getLsbD i).toNat + (b.getLsbD i).toNat + carry i) % 2 ∧
      carry (i + 1) = ((a.getLsbD i).toNat + (b.getLsbD i).toNat + carry i) / 2

/-- The closed forms of the adder and subtractor for every word length, derived by the spec (43_add_sub.md
section 3). -/
def Obligations.AdderClosedForms : Prop :=
  ∀ (W : Nat) (a b : BitVec W),
    (∀ cin : Bool, addRc a b cin = BitVec.ofNat W (a.toNat + b.toNat + cin.toNat)) ∧
    coreAdd a b = BitVec.ofInt W (a.toInt + b.toInt) ∧
    coreSub a b = BitVec.ofInt W ((a.toNat : Int) - (b.toNat : Int)) ∧
    coreSub a b = BitVec.ofInt W (a.toInt - b.toInt)

/-- The source's two properties: `add(w, negate(w)) == zero` and `subtract(a, b) == add(a, negate(b))`, for
all words, `MINW` included (R164). -/
def Obligations.NegationAndSubtractionAgree : Prop :=
  ∀ (W : Nat), 2 ≤ W → (∀ w : BitVec W, coreAdd w (coreNeg w) = zeroWord W) ∧
    (∀ a b : BitVec W, coreSub a b = coreAdd a (coreNeg b)) ∧ coreNeg (minWord W) = minWord W

/-- The laws of the Logic Unit (42_logic.md, laws): complement is an involution, negation is complement plus
one, and each output bit depends only on the input bits of its own index. -/
def Obligations.LogicUnitLaws : Prop :=
  ∀ (W : Nat), (∀ w : BitVec W, coreNot (coreNot w) = w) ∧
    (∀ w : BitVec W, coreNeg w = coreAdd (coreNot w) (BitVec.ofNat W 1)) ∧
    (∀ (a b c d : BitVec W) (i : Nat), a.getLsbD i = c.getLsbD i → b.getLsbD i = d.getLsbD i →
      (coreAnd a b).getLsbD i = (coreAnd c d).getLsbD i ∧ (coreOr a b).getLsbD i = (coreOr c d).getLsbD i ∧
      (coreXor a b).getLsbD i = (coreXor c d).getLsbD i ∧ (coreNot a).getLsbD i = (coreNot c).getLsbD i)

/-- The closed forms of the Shift/Mask Unit on numbers, for every word length and every count, derived by the
spec (41_shift_mask.md section 3). -/
def Obligations.ShiftMaskClosedForms : Prop :=
  ∀ (W : Nat) (a : BitVec W) (c : Int), 2 ≤ W →
    (0 < c →
      coreAsh c a = BitVec.ofNat W (a.toNat * 2 ^ min c.natAbs (W - 1)) ∧
      coreLsh c a = BitVec.ofNat W (a.toNat * 2 ^ min c.natAbs (W - 1)) ∧
      coreCsh c a = BitVec.ofNat W (a.toNat * 2 ^ (c.natAbs % W) + a.toNat / 2 ^ (W - c.natAbs % W)) ∧
      coreMask c a = BitVec.ofNat W (a.toNat % 2 ^ min c.natAbs W)) ∧
    (c < 0 →
      coreAsh c a = BitVec.ofInt W (a.toInt / 2 ^ min c.natAbs (W - 1)) ∧
      coreLsh c a = BitVec.ofNat W (a.toNat / 2 ^ min c.natAbs (W - 1)) ∧
      coreCsh c a = BitVec.ofNat W (a.toNat / 2 ^ (c.natAbs % W) + a.toNat * 2 ^ (W - c.natAbs % W)) ∧
      coreMask c a = BitVec.ofNat W (a.toNat - a.toNat % 2 ^ (W - min c.natAbs W))) ∧
    (c = 0 → coreAsh c a = a ∧ coreLsh c a = a ∧ coreCsh c a = a ∧ coreMask c a = zeroWord W)

/-- The round trip of the arithmetic shift, as the spec restates it (41_shift_mask.md section 3): right then
left clears the low `k` bits; left then right sign-extends what is left of the word. -/
def Obligations.ArithmeticShiftRoundTrip : Prop :=
  ∀ (W : Nat) (w : BitVec W) (c : Int), 2 ≤ W →
    (c < 0 → ∀ i, i < W → (coreAsh (-c) (coreAsh c w)).getLsbD i =
      (decide (min c.natAbs (W - 1) ≤ i) && w.getLsbD i)) ∧
    (0 < c → ∀ i, i < W → (coreAsh (-c) (coreAsh c w)).getLsbD i =
      w.getLsbD (min i (W - 1 - min c.natAbs (W - 1))))

/-- Circular shift is a bijection: shifting by `c` then `−c`, or `W` times by `c`, gives the word back (R117). -/
def Obligations.CircularShiftIsABijection : Prop :=
  ∀ (W : Nat) (w : BitVec W) (c : Int), 2 ≤ W →
    coreCsh (-c) (coreCsh c w) = w ∧ (coreCsh c)^[W] w = w

/-- The magnitude of an operand, read unsigned, is the absolute value of the operand, `MINW` included
(44_multiplier.md, magnitudes at the extreme). -/
def Obligations.MagnitudeIsTheAbsoluteValue : Prop :=
  ∀ (W : Nat) (a : BitVec W), 2 ≤ W → ((magnitude a).toNat : Int) = |a.toInt|

/-- The multiplier's loop runs exactly `bitlen(uint(m2))` times, at most `W`, and then `m2` is zero: the bound
the model gives it never cuts it short (44_multiplier.md, loop bound and termination). -/
def Obligations.MultiplierLoopEndsWithinTheWordLength : Prop :=
  ∀ (W n : Nat) [W.AtLeastTwo] (r : MulRegs W),
    mulWhile n r = mulBody^[min n (Nat.size r.m2.toNat)] r ∧
    (coreIszero (mulWhile n r).m2 = true ↔ Nat.size r.m2.toNat ≤ n) ∧ Nat.size r.m2.toNat ≤ W

/-- Shift-and-add multiplication computes the low `W` bits of the product, of the signed and of the unsigned
readings alike, for every pair of words (44_multiplier.md, closed form). -/
def Obligations.MultiplierComputesTheProduct : Prop :=
  ∀ (W : Nat) [W.AtLeastTwo] (a b : BitVec W),
    coreMul a b = BitVec.ofInt W (a.toInt * b.toInt) ∧ coreMul a b = BitVec.ofNat W (a.toNat * b.toNat)

/-- Division by zero is no error: it saturates by the sign of the dividend, and the remainder is zero (R200
step 1, the source's division-by-zero policy). -/
def Obligations.DivisionByZeroSaturates : Prop :=
  ∀ (W : Nat) [W.AtLeastTwo] (a : BitVec W),
    divcore a (zeroWord W) = (if a.getLsbD (W - 1) then minWord W else maxWord W, zeroWord W)

/-- The restoring core is unsigned division of the magnitudes, and its sign test on the trial word is the
unsigned comparison (45_divider.md section 3). -/
def Obligations.RestoringLoopDividesMagnitudes : Prop :=
  ∀ (W : Nat) [W.AtLeastTwo] (n d : BitVec W), d.toNat ≠ 0 → d.toNat ≤ 2 ^ (W - 1) →
    (n.toNat < 2 * d.toNat → (coreIsnneg (coreSub n d) = true ↔ d.toNat ≤ n.toNat)) ∧
    (n.toNat ≤ 2 ^ (W - 1) →
      (divMagnitudes n d).q.toNat = n.toNat / d.toNat ∧ (divMagnitudes n d).r.toNat = n.toNat % d.toNat)

/-- Restoring division computes the quotient rounded toward zero and the remainder with the sign of the
dividend, for every dividend and every non-zero divisor; only `MINW / −1` wraps (45_divider.md section 3). -/
def Obligations.DividerComputesTruncatedDivision : Prop :=
  ∀ (W : Nat) [W.AtLeastTwo] (a b : BitVec W), b ≠ zeroWord W →
    divcore a b = (BitVec.ofInt W (a.toInt.tdiv b.toInt),
      BitVec.ofInt W (a.toInt - a.toInt.tdiv b.toInt * b.toInt)) ∧
    (divcore a b).2.toInt = a.toInt - a.toInt.tdiv b.toInt * b.toInt ∧
    |(divcore a b).2.toInt| < |b.toInt| ∧
    ((a ≠ minWord W ∨ b ≠ BitVec.allOnes W) → (divcore a b).1.toInt = a.toInt.tdiv b.toInt) ∧
    divcore (minWord W) (BitVec.allOnes W) = (minWord W, zeroWord W)

/-- The source's division property in wrapping arithmetic, with the signs as the spec reads them: a quotient
that is not zero has the XOR of the operands' signs, but for `MINW / −1`, and a remainder that is not zero
has the dividend's (45_divider.md section 3, 90_conflicts.md C6). -/
def Obligations.DivisionIdentity : Prop :=
  ∀ (W : Nat) [W.AtLeastTwo] (a b : BitVec W), b ≠ zeroWord W →
    coreAdd (coreMul (coreDiv a b) b) (coreRem a b) = a ∧
    (coreDiv a b ≠ zeroWord W → ¬(a = minWord W ∧ b = BitVec.allOnes W) →
      (coreDiv a b).getLsbD (W - 1) = (a.getLsbD (W - 1) ^^ b.getLsbD (W - 1))) ∧
    (coreRem a b ≠ zeroWord W → (coreRem a b).getLsbD (W - 1) = a.getLsbD (W - 1))

/-- The port view (R73): driving OPSEL, A, B and CNT puts the core's result on the ports that the operation
defines. Nothing is said of the other ports, whose values are free. -/
def Obligations.PortsCarryTheCoreResult : Prop :=
  ∀ (W n : Nat) [W.AtLeastTwo] (a b : BitVec W) (cnt : Count) (op : BitVec 5) (f : Format) (i : Instr),
    opcodeMap op.toNat 0 0 0 0 cnt = some (f, i) →
    (∀ p, coreResult i a b = .pred p → (portView n ⟨op, a, b, cnt⟩).pred = p) ∧
    (∀ y, coreResult i a b = .one y → (portView n ⟨op, a, b, cnt⟩).y = y) ∧
    (∀ q m, coreResult i a b = .two q m →
      (portView n ⟨op, a, b, cnt⟩).y = q ∧ (portView n ⟨op, a, b, cnt⟩).y2 = m)
end

