-- ==== Sys2Proof/Laws/Bits.lean ====
section
/-!
SUPPORT. What the bit primitives and the loops do, bit by bit.
-/

namespace Sys2Proof.Machine

variable {W : Nat} {α : Type}

@[simp] theorem bit_setbit (v : BitVec W) (i j : Nat) (b : Bool) :
    bit (setbit v i b) j = if j = i ∧ j < W then b else bit v j := by
  unfold bit setbit
  by_cases hW : j < W
  · cases b <;> by_cases h : j = i
    · subst h; simp [hW]
    · by_cases h' : j < i <;> simp_all
      omega
    · subst h; simp [hW]
    · by_cases h' : j < i <;> simp_all
      omega
  · simp [hW, BitVec.getLsbD_of_ge _ _ (Nat.le_of_not_lt hW)]

/-- Two words with the same bits 0 to TOP are equal. -/
theorem eq_of_bit_eq {u v : BitVec W} (h : ∀ i, i < W → bit u i = bit v i) : u = v :=
  BitVec.eq_of_getLsbD_eq h

@[simp] theorem bit_zero (i : Nat) : bit (0#W) i = false := by simp [bit]

@[simp] theorem forUp_zero (body : Nat → α → α) (y : α) : forUp body 0 y = y := rfl
@[simp] theorem forUp_succ (body : Nat → α → α) (n : Nat) (y : α) :
    forUp body (n + 1) y = body n (forUp body n y) := rfl
@[simp] theorem forDown_zero (body : Nat → α → α) (y : α) : forDown body 0 y = y := rfl
@[simp] theorem forDown_succ (body : Nat → α → α) (n : Nat) (y : α) :
    forDown body (n + 1) y = forDown body n (body n y) := rfl

/-- A property that holds before an ascending loop and that every iteration keeps holds after it. -/
theorem forUp_induction {body : Nat → α → α} {P : Nat → α → Prop} {y : α} (h0 : P 0 y)
    (hstep : ∀ i z, P i z → P (i + 1) (body i z)) (n : Nat) : P n (forUp body n y) := by
  induction n with
  | zero => exact h0
  | succ n ih => exact hstep n _ ih

/-- After positions 0 to `n − 1` are set, those bits are `f`'s and the others are as before. -/
theorem bit_forUp_setbit (f : Nat → Bool) (n : Nat) (y : BitVec W) (j : Nat) :
    bit (forUp (fun i y => setbit y i (f i)) n y) j = if j < n ∧ j < W then f j else bit y j := by
  induction n with
  | zero => simp
  | succ n ih =>
    rw [forUp_succ, bit_setbit, ih]
    by_cases h : j = n
    · subst h; by_cases hw : j < W <;> simp [hw]
    · simp only [h, false_and, if_false]
      congr 1
      simp only [eq_iff_iff]
      omega

/-- `eachBit f` has bit `j` equal to `f j`. -/
@[simp] theorem bit_eachBit (f : Nat → Bool) (j : Nat) : bit (eachBit f : BitVec W) j = (decide (j < W) && f j) := by
  unfold eachBit
  rw [bit_forUp_setbit]
  by_cases h : j < W <;> simp [h]

/-- `bit` is the library's bit access, for the library's lemmas. -/
theorem bit_eq_getLsbD (v : BitVec W) (i : Nat) : bit v i = v.getLsbD i := rfl

theorem bit_zeroWord (i : Nat) : bit (zeroWord W) i = false := bit_zero i

theorem bit_maxWord (i : Nat) : bit (maxWord W) i = decide (i + 1 < W) := by
  unfold maxWord
  rw [bit_setbit]
  by_cases h : i = W - 1 ∧ i < W
  · rw [if_pos h]; symm; simp; omega
  · rw [if_neg h, bit_eq_getLsbD, BitVec.getLsbD_allOnes]; simp; omega

theorem bit_minWord (i : Nat) : bit (minWord W) i = decide (i + 1 = W) := by
  unfold minWord
  rw [bit_setbit]
  by_cases h : i = W - 1 ∧ i < W
  · rw [if_pos h]; symm; simp; omega
  · rw [if_neg h, bit_zero]; symm; simp; omega

end Sys2Proof.Machine
end

