-- ==== Sys2Proof/Laws/PerInstr.lean ====
section
/-!
SUPPORT. One fact about every instruction as syntax: its request word carries its own OP value in `r[4:0]`,
and `Z = r[7:5]` is zero (30_encoding.md R60, R64).
-/

namespace Sys2Proof

/-- The OP field of a packed request. -/
theorem packRequest_op (op : BitVec 5) (rd rs1 rs2 : Index) (x : BitVec 32) :
    (packRequest op rd rs1 rs2 x).op = op := by
  ext i hi
  simp only [packRequest, Request.op, BitVec.getElem_extractLsb', BitVec.getLsbD_or, BitVec.getLsbD_shiftLeft,
    BitVec.getLsbD_setWidth]
  interval_cases i <;> simp

/-- The Z field of a packed request. -/
theorem packRequest_z (op : BitVec 5) (rd rs1 rs2 : Index) (x : BitVec 32) :
    (packRequest op rd rs1 rs2 x).extractLsb' 5 3 = 0#3 := by
  ext i hi
  simp only [packRequest, BitVec.getElem_extractLsb', BitVec.getLsbD_or, BitVec.getLsbD_shiftLeft,
    BitVec.getLsbD_setWidth]
  interval_cases i <;> simp

namespace Laws.OpField

/-- The request word of `i` selects `i`'s operation, and its reserved field is zero. -/
def Statement (i : Instr) : Prop := (encode i).op = i.opcode ∧ (encode i).extractLsb' 5 3 = 0#3

theorem isneg (rs1 : Index) : Statement (.isneg rs1) := ⟨packRequest_op .., packRequest_z ..⟩
theorem isnneg (rs1 : Index) : Statement (.isnneg rs1) := ⟨packRequest_op .., packRequest_z ..⟩
theorem iszero (rs1 : Index) : Statement (.iszero rs1) := ⟨packRequest_op .., packRequest_z ..⟩
theorem ash (rd rs1 : Index) (count : Count) : Statement (.ash rd rs1 count) := ⟨packRequest_op .., packRequest_z ..⟩
theorem lsh (rd rs1 : Index) (count : Count) : Statement (.lsh rd rs1 count) := ⟨packRequest_op .., packRequest_z ..⟩
theorem csh (rd rs1 : Index) (count : Count) : Statement (.csh rd rs1 count) := ⟨packRequest_op .., packRequest_z ..⟩
theorem mask (rd rs1 : Index) (count : Count) : Statement (.mask rd rs1 count) := ⟨packRequest_op .., packRequest_z ..⟩
theorem and (rd rs1 rs2 : Index) : Statement (.and rd rs1 rs2) := ⟨packRequest_op .., packRequest_z ..⟩
theorem or (rd rs1 rs2 : Index) : Statement (.or rd rs1 rs2) := ⟨packRequest_op .., packRequest_z ..⟩
theorem xor (rd rs1 rs2 : Index) : Statement (.xor rd rs1 rs2) := ⟨packRequest_op .., packRequest_z ..⟩
theorem not (rd rs1 : Index) : Statement (.not rd rs1) := ⟨packRequest_op .., packRequest_z ..⟩
theorem neg (rd rs1 : Index) : Statement (.neg rd rs1) := ⟨packRequest_op .., packRequest_z ..⟩
theorem add (rd rs1 rs2 : Index) : Statement (.add rd rs1 rs2) := ⟨packRequest_op .., packRequest_z ..⟩
theorem sub (rd rs1 rs2 : Index) : Statement (.sub rd rs1 rs2) := ⟨packRequest_op .., packRequest_z ..⟩
theorem mul (rd rs1 rs2 : Index) : Statement (.mul rd rs1 rs2) := ⟨packRequest_op .., packRequest_z ..⟩
theorem divrem (rd rd2 rs1 rs2 : Index) : Statement (.divrem rd rd2 rs1 rs2) := ⟨packRequest_op .., packRequest_z ..⟩
theorem div (rd rs1 rs2 : Index) : Statement (.div rd rs1 rs2) := ⟨packRequest_op .., packRequest_z ..⟩
theorem rem (rd rs1 rs2 : Index) : Statement (.rem rd rs1 rs2) := ⟨packRequest_op .., packRequest_z ..⟩

end Laws.OpField

end Sys2Proof
end

