-- ==== Sys2Proof/Laws/Decode.lean ====
section
/-!
SUPPORT. What the fields of a packed request word are, one lemma per field (30_encoding.md R60, R76).
-/

namespace Sys2Proof

@[simp] theorem packRequest_rd (op : BitVec 5) (rd rs1 rs2 : Index) (x : BitVec 32) :
    (packRequest op rd rs1 rs2 x).rd = rd := by
  ext i hi
  simp only [packRequest, Request.rd, BitVec.getElem_extractLsb', BitVec.getLsbD_or, BitVec.getLsbD_shiftLeft,
    BitVec.getLsbD_setWidth]
  interval_cases i <;> simp

@[simp] theorem packRequest_rs1 (op : BitVec 5) (rd rs1 rs2 : Index) (x : BitVec 32) :
    (packRequest op rd rs1 rs2 x).rs1 = rs1 := by
  ext i hi
  simp only [packRequest, Request.rs1, BitVec.getElem_extractLsb', BitVec.getLsbD_or, BitVec.getLsbD_shiftLeft,
    BitVec.getLsbD_setWidth]
  interval_cases i <;> simp

@[simp] theorem packRequest_rs2 (op : BitVec 5) (rd rs1 rs2 : Index) (x : BitVec 32) :
    (packRequest op rd rs1 rs2 x).rs2 = rs2 := by
  ext i hi
  simp only [packRequest, Request.rs2, BitVec.getElem_extractLsb', BitVec.getLsbD_or, BitVec.getLsbD_shiftLeft,
    BitVec.getLsbD_setWidth]
  interval_cases i <;> simp

@[simp] theorem packRequest_count (op : BitVec 5) (rd rs1 rs2 : Index) (x : BitVec 32) :
    (packRequest op rd rs1 rs2 x).count = x := by
  ext i hi
  simp only [packRequest, Request.count, BitVec.getElem_extractLsb', BitVec.getLsbD_or, BitVec.getLsbD_shiftLeft,
    BitVec.getLsbD_setWidth]
  interval_cases i <;> simp

/-- `RD2` is the low byte of the extension field. -/
theorem Request.rd2_eq_count (r : Request) : r.rd2 = r.count.setWidth 8 := by
  ext i hi
  simp only [Request.rd2, Request.count, BitVec.getElem_extractLsb', BitVec.getElem_setWidth,
    BitVec.getLsbD_extractLsb']
  simp [show i < 32 by omega]

end Sys2Proof
end

