-- ==== Sys2Proof/Laws/State.lean ====
section
/-!
SUPPORT. One lemma per field per update of the block and of the machine.
-/

namespace Sys2Proof.Machine

variable {C : Config.Params}

/-! ### The reference parameters as numerals, for arithmetic -/

@[simp] theorem reference_W : Config.reference.W = 32 := rfl
@[simp] theorem reference_NBUF : Config.reference.NBUF = 16 := rfl

/-! ### The block -/

@[simp] theorem Block.write_p (b : Block C) (j : Nat) (v : BitVec C.W) : (b.write j v).p = b.p := rfl
@[simp] theorem Block.write_fault (b : Block C) (j : Nat) (v : BitVec C.W) : (b.write j v).fault = b.fault := rfl

@[simp] theorem Block.latchP_x (b : Block C) (v : Bool) : (b.latchP v).x = b.x := rfl
@[simp] theorem Block.latchP_p (b : Block C) (v : Bool) : (b.latchP v).p = some v := rfl
@[simp] theorem Block.latchP_fault (b : Block C) (v : Bool) : (b.latchP v).fault = b.fault := rfl

@[simp] theorem Block.raise_x (b : Block C) (k : Cause) (r : Request) : (b.raise k r).x = b.x := rfl
@[simp] theorem Block.raise_p (b : Block C) (k : Cause) (r : Request) : (b.raise k r).p = b.p := rfl
@[simp] theorem Block.raise_fault (b : Block C) (k : Cause) (r : Request) :
    (b.raise k r).fault = some (k, r) := rfl

@[simp] theorem Block.reset_p : (Block.reset C).p = none := rfl
@[simp] theorem Block.reset_fault : (Block.reset C).fault = none := rfl

/-! ### The machine -/

namespace ForInstance

@[simp] theorem State.reset_block : (State.reset C).block = Block.reset C := rfl
@[simp] theorem State.reset_hpc : (State.reset C).hpc = 0 := rfl
@[simp] theorem State.reset_prog : (State.reset C).prog = [] := rfl
@[simp] theorem State.reset_afterFault : (State.reset C).afterFault = [] := rfl
@[simp] theorem State.reset_reads : (State.reset C).reads = [] := rfl

@[simp] theorem State.raise_block (k : Cause) (r : Request) (s : State C) :
    (s.raise k r).block = s.block.raise k r := rfl
@[simp] theorem State.raise_hpc (k : Cause) (r : Request) (s : State C) : (s.raise k r).hpc = s.hpc := rfl
@[simp] theorem State.raise_prog (k : Cause) (r : Request) (s : State C) : (s.raise k r).prog = s.prog := rfl
@[simp] theorem State.raise_afterFault (k : Cause) (r : Request) (s : State C) :
    (s.raise k r).afterFault = s.afterFault := rfl
@[simp] theorem State.raise_reads (k : Cause) (r : Request) (s : State C) : (s.raise k r).reads = s.reads := rfl

@[simp] theorem State.advance_block (s : State C) : (s.advance).block = s.block := rfl
@[simp] theorem State.advance_hpc (s : State C) : (s.advance).hpc = s.hpc + 1 := rfl
@[simp] theorem State.advance_prog (s : State C) : (s.advance).prog = s.prog := rfl
@[simp] theorem State.advance_afterFault (s : State C) : (s.advance).afterFault = s.afterFault := rfl
@[simp] theorem State.advance_reads (s : State C) : (s.advance).reads = s.reads := rfl

@[simp] theorem State.goto_block (line : Nat) (s : State C) : (s.goto line).block = s.block := rfl
@[simp] theorem State.goto_hpc (line : Nat) (s : State C) : (s.goto line).hpc = line := rfl
@[simp] theorem State.goto_prog (line : Nat) (s : State C) : (s.goto line).prog = s.prog := rfl
@[simp] theorem State.goto_afterFault (line : Nat) (s : State C) : (s.goto line).afterFault = s.afterFault := rfl
@[simp] theorem State.goto_reads (line : Nat) (s : State C) : (s.goto line).reads = s.reads := rfl

@[simp] theorem State.see_block (v : HostSeen C.W) (s : State C) : (s.see v).block = s.block := rfl
@[simp] theorem State.see_hpc (v : HostSeen C.W) (s : State C) : (s.see v).hpc = s.hpc := rfl
@[simp] theorem State.see_prog (v : HostSeen C.W) (s : State C) : (s.see v).prog = s.prog := rfl
@[simp] theorem State.see_afterFault (v : HostSeen C.W) (s : State C) : (s.see v).afterFault = s.afterFault := rfl
@[simp] theorem State.see_reads (v : HostSeen C.W) (s : State C) : (s.see v).reads = s.reads ++ [v] := rfl

@[simp] theorem State.hostReadP_block (s : State C) : (s.hostReadP).block = s.block := rfl
@[simp] theorem State.hostReadP_hpc (s : State C) : (s.hostReadP).hpc = s.hpc := rfl
@[simp] theorem State.hostReadP_prog (s : State C) : (s.hostReadP).prog = s.prog := rfl
@[simp] theorem State.hostReadP_afterFault (s : State C) : (s.hostReadP).afterFault = s.afterFault := rfl
@[simp] theorem State.hostReadP_reads (s : State C) : (s.hostReadP).reads = s.reads ++ [.predicate s.block.p] := rfl

@[simp] theorem State.hostReadF_block (s : State C) : (s.hostReadF).block = s.block := rfl
@[simp] theorem State.hostReadF_hpc (s : State C) : (s.hostReadF).hpc = s.hpc := rfl
@[simp] theorem State.hostReadF_prog (s : State C) : (s.hostReadF).prog = s.prog := rfl
@[simp] theorem State.hostReadF_afterFault (s : State C) : (s.hostReadF).afterFault = s.afterFault := rfl
@[simp] theorem State.hostReadF_reads (s : State C) :
    (s.hostReadF).reads = s.reads ++ [.faultLatch s.block.fault] := rfl

@[simp] theorem State.hostReset_block (s : State C) : (s.hostReset).block = Block.reset C := rfl
@[simp] theorem State.hostReset_hpc (s : State C) : (s.hostReset).hpc = 0 := rfl
@[simp] theorem State.hostReset_prog (s : State C) : (s.hostReset).prog = s.prog := rfl
@[simp] theorem State.hostReset_afterFault (s : State C) : (s.hostReset).afterFault = s.afterFault := rfl
@[simp] theorem State.hostReset_reads (s : State C) : (s.hostReset).reads = s.reads := rfl

@[simp] theorem State.hostBranchP_block (yes no : Nat) (s : State C) :
    (s.hostBranchP yes no).block = s.block := by
  unfold State.hostBranchP
  split <;> rfl

@[simp] theorem State.hostBranchP_prog (yes no : Nat) (s : State C) :
    (s.hostBranchP yes no).prog = s.prog := by
  unfold State.hostBranchP
  split <;> rfl

@[simp] theorem State.hostBranchP_afterFault (yes no : Nat) (s : State C) :
    (s.hostBranchP yes no).afterFault = s.afterFault := by
  unfold State.hostBranchP
  split <;> rfl

@[simp] theorem State.hostOwnRule_block (s : State C) : (s.hostOwnRule).block = s.block := rfl
@[simp] theorem State.hostOwnRule_prog (s : State C) : (s.hostOwnRule).prog = s.prog := rfl
@[simp] theorem State.hostOwnRule_afterFault (s : State C) : (s.hostOwnRule).afterFault = s.afterFault := rfl
@[simp] theorem State.hostOwnRule_reads (s : State C) : (s.hostOwnRule).reads = s.reads := rfl

end ForInstance

/-! ### The reference instance -/

@[simp] theorem State.reset_eq : State.reset = ForInstance.State.reset Config.reference := rfl

@[simp] theorem State.withFetchWord_block (s : State) (nbits w : Nat) :
    (s.withFetchWord nbits w).block = s.block := rfl
@[simp] theorem State.withFetchWord_hpc (s : State) (nbits w : Nat) :
    (s.withFetchWord nbits w).hpc = s.hpc := rfl
@[simp] theorem State.withFetchWord_afterFault (s : State) (nbits w : Nat) :
    (s.withFetchWord nbits w).afterFault = s.afterFault := rfl
@[simp] theorem State.withFetchWord_reads (s : State) (nbits w : Nat) :
    (s.withFetchWord nbits w).reads = s.reads := rfl

end Sys2Proof.Machine
end

