-- ==== Sys2Proof/Laws/Ops.lean ====
section
/-!
SUPPORT. What each shared operation on the state can do, said once.
-/

namespace Sys2Proof.Machine

variable {C : Config.Params}

/-! ### Buffers -/

/-- Reading after a write: the written buffer holds the word, if it exists; the others are as before. -/
theorem Block.read_write (b : Block C) (i j : Nat) (v : BitVec C.W) :
    (b.write i v).read j = if i = j ∧ i < C.NBUF then some v else b.read j := by
  unfold Block.read Block.write
  by_cases h : i = j
  · subst h
    by_cases hi : i < C.NBUF
    · simp [hi]
    · simp [hi]
  · simp [h, Vector.getElem?_setIfInBounds_ne]

@[simp] theorem Block.read_write_self (b : Block C) {i : Nat} (h : i < C.NBUF) (v : BitVec C.W) :
    (b.write i v).read i = some v := by
  rw [Block.read_write, if_pos ⟨rfl, h⟩]

theorem Block.read_write_ne (b : Block C) {i j : Nat} (h : i ≠ j) (v : BitVec C.W) :
    (b.write i v).read j = b.read j := by
  rw [Block.read_write, if_neg fun h' => h h'.1]

@[simp] theorem Block.read_latchP (b : Block C) (p : Bool) (j : Nat) : (b.latchP p).read j = b.read j := rfl

@[simp] theorem Block.read_raise (b : Block C) (k : Cause) (r : Request) (j : Nat) :
    (b.raise k r).read j = b.read j := rfl

@[simp] theorem Block.read_reset (j : Nat) : (Block.reset C).read j = none := by
  unfold Block.read Block.reset
  by_cases h : j < C.NBUF <;> simp [h]

/-- No buffer outside the file holds a value. -/
theorem Block.read_of_ge (b : Block C) {j : Nat} (h : C.NBUF ≤ j) : b.read j = none := by
  unfold Block.read
  simp [Vector.getElem?_eq_none h]

/-- Two blocks with the same latches whose buffers read the same are equal. -/
theorem Block.ext_read {b c : Block C} (hx : ∀ j, b.read j = c.read j) (hp : b.p = c.p)
    (hf : b.fault = c.fault) : b = c := by
  have hxx : b.x = c.x := by
    apply Vector.ext
    intro j hj
    have := hx j
    unfold Block.read at this
    simpa [hj] using this
  cases b
  cases c
  simp_all

/-! ### Performing a request -/

/-- Everything an attempt can come to (R71). -/
theorem Block.attempt_cases (i : Instr) (body : Block C → Option (Block C)) (b : Block C) :
    (b.fault.isSome = true ∧ b.attempt i body = .refused) ∨
    (b.fault = none ∧ ∃ k, i.operandCause C = some k ∧ b.attempt i body = .raised (b.raise k (encode i))) ∨
    (b.fault = none ∧ i.operandCause C = none ∧ body b = none ∧
      b.attempt i body = .raised (b.raise .unwrittenRead (encode i))) ∨
    (b.fault = none ∧ i.operandCause C = none ∧ ∃ c, body b = some c ∧ b.attempt i body = .done c) := by
  unfold Block.attempt
  cases hf : b.fault with
  | some f => exact .inl ⟨rfl, by simp⟩
  | none =>
    cases hk : i.operandCause C with
    | some k => exact .inr (.inl ⟨rfl, k, rfl, by simp⟩)
    | none =>
      cases hb : body b with
      | none => exact .inr (.inr (.inl ⟨rfl, rfl, rfl, by simp⟩))
      | some c => exact .inr (.inr (.inr ⟨rfl, rfl, c, rfl, by simp⟩))

/-- Format P answers a block exactly where its source holds a word, with that word's predicate latched. -/
theorem Block.predicate_eq_some {rs1 : Index} {f : BitVec C.W → Bool} {b c : Block C} :
    b.predicate rs1 f = some c ↔ ∃ a, b.read rs1.toNat = some a ∧ c = b.latchP (f a) := by
  unfold Block.predicate
  cases b.read rs1.toNat <;> simp [eq_comm]

/-- Formats U and S answer a block exactly where the source holds a word. -/
theorem Block.unary_eq_some {rd rs1 : Index} {f : BitVec C.W → BitVec C.W} {b c : Block C} :
    b.unary rd rs1 f = some c ↔ ∃ a, b.read rs1.toNat = some a ∧ c = b.write rd.toNat (f a) := by
  unfold Block.unary
  cases b.read rs1.toNat <;> simp [eq_comm]

/-- Format B answers a block exactly where both sources hold a word. -/
theorem Block.binary_eq_some {rd rs1 rs2 : Index} {f : BitVec C.W → BitVec C.W → BitVec C.W} {b c : Block C} :
    b.binary rd rs1 rs2 f = some c ↔
      ∃ u v, b.read rs1.toNat = some u ∧ b.read rs2.toNat = some v ∧ c = b.write rd.toNat (f u v) := by
  unfold Block.binary
  cases b.read rs1.toNat <;> cases b.read rs2.toNat <;> simp [eq_comm]

/-- Format D answers a block exactly where both sources hold a word. -/
theorem Block.twoResults_eq_some {rd rd2 rs1 rs2 : Index} {f : BitVec C.W → BitVec C.W → BitVec C.W × BitVec C.W}
    {b c : Block C} :
    b.twoResults rd rd2 rs1 rs2 f = some c ↔
      ∃ u v, b.read rs1.toNat = some u ∧ b.read rs2.toNat = some v ∧
        c = (b.write rd.toNat (f u v).1).write rd2.toNat (f u v).2 := by
  unfold Block.twoResults
  cases b.read rs1.toNat <;> cases b.read rs2.toNat <;> simp [eq_comm]

/-- Everything performing a decoded request on the machine can come to. -/
theorem ForInstance.State.perform_cases (i : Instr) (body : Block C → Option (Block C))
    (s : ForInstance.State C) :
    (s.block.fault.isSome = true ∧ s.perform i body = .refused .faultLatched) ∨
    (s.block.fault = none ∧ ∃ k, i.operandCause C = some k ∧
      s.perform i body = .next (s.raise k (encode i))) ∨
    (s.block.fault = none ∧ i.operandCause C = none ∧ body s.block = none ∧
      s.perform i body = .next (s.raise .unwrittenRead (encode i))) ∨
    (s.block.fault = none ∧ i.operandCause C = none ∧ ∃ c, body s.block = some c ∧
      s.perform i body = .next { s with block := c, hpc := s.hpc + 1 }) := by
  unfold ForInstance.State.perform
  rcases Block.attempt_cases i body s.block with ⟨h, e⟩ | ⟨h, k, hk, e⟩ | ⟨h, hk, hb, e⟩ | ⟨h, hk, c, hb, e⟩
  · exact .inl ⟨h, by rw [e]; rfl⟩
  · exact .inr (.inl ⟨h, k, hk, by rw [e]; rfl⟩)
  · exact .inr (.inr (.inl ⟨h, hk, hb, by rw [e]; rfl⟩))
  · exact .inr (.inr (.inr ⟨h, hk, c, hb, by rw [e]; rfl⟩))

/-- A decoded request completes where nothing stands in its way. -/
theorem ForInstance.State.perform_done {i : Instr} {body : Block C → Option (Block C)}
    {s : ForInstance.State C} {c : Block C} (hf : s.block.fault = none)
    (hk : i.operandCause C = none) (hb : body s.block = some c) :
    s.perform i body = .next { s with block := c, hpc := s.hpc + 1 } := by
  simp [ForInstance.State.perform, Block.attempt, ForInstance.State.settle, hf, hk, hb]

/-- The operand checks of R67 and R68 pass exactly on a well-formed instruction. -/
theorem Instr.operandCause_eq_none_iff (C : Config.Params) (i : Instr) :
    i.operandCause C = none ↔ i.wf C = true := by
  cases i <;>
    simp only [Instr.operandCause, Instr.indices, Instr.destsClash, Instr.wf, Index.inFile, List.any_cons,
      List.any_nil, Bool.or_false, Bool.or_eq_true, Bool.and_eq_true, decide_eq_true_eq, beq_iff_eq, bne_iff_ne,
      Bool.false_eq_true, if_false, ne_eq] <;>
    split_ifs <;> simp_all <;> omega

end Sys2Proof.Machine
end

