-- ==== Sys2Proof/Laws/Step.lean ====
section
/-!
SUPPORT. Everything `exec` and `step` can do, said once, so that a proof over all instructions or over all
host moves need not unfold a meaning.
-/

namespace Sys2Proof.Machine

variable {C : Config.Params}

/-- What the meaning of `i` does to the block once its operands are checked: one of the four shapes of R71,
over the core function of `i`. -/
def bodyOf (i : Instr) : Block C → Option (Block C) :=
  haveI := C.atLeastTwo
  match i with
  | .isneg rs1 => Block.predicate rs1 coreIsneg
  | .isnneg rs1 => Block.predicate rs1 coreIsnneg
  | .iszero rs1 => Block.predicate rs1 coreIszero
  | .ash rd rs1 c => Block.unary rd rs1 (coreAsh (countOf c))
  | .lsh rd rs1 c => Block.unary rd rs1 (coreLsh (countOf c))
  | .csh rd rs1 c => Block.unary rd rs1 (coreCsh (countOf c))
  | .mask rd rs1 c => Block.unary rd rs1 (coreMask (countOf c))
  | .and rd rs1 rs2 => Block.binary rd rs1 rs2 coreAnd
  | .or rd rs1 rs2 => Block.binary rd rs1 rs2 coreOr
  | .xor rd rs1 rs2 => Block.binary rd rs1 rs2 coreXor
  | .not rd rs1 => Block.unary rd rs1 coreNot
  | .neg rd rs1 => Block.unary rd rs1 coreNeg
  | .add rd rs1 rs2 => Block.binary rd rs1 rs2 coreAdd
  | .sub rd rs1 rs2 => Block.binary rd rs1 rs2 coreSub
  | .mul rd rs1 rs2 => Block.binary rd rs1 rs2 coreMul
  | .divrem rd rd2 rs1 rs2 => Block.twoResults rd rd2 rs1 rs2 divcore
  | .div rd rs1 rs2 => Block.binary rd rs1 rs2 coreDiv
  | .rem rd rs1 rs2 => Block.binary rd rs1 rs2 coreRem

/-- `exec` performs each instruction with its own body. -/
theorem exec_eq_perform (i : Instr) (s : State) : exec i s = s.perform i (bodyOf i) := by cases i <;> rfl

/-- A body never changes the fault latch. -/
theorem bodyOf_fault {i : Instr} {b c : Block C} (h : bodyOf i b = some c) :
    c.fault = b.fault := by
  cases i
  case isneg | isnneg | iszero =>
    obtain ⟨_, -, rfl⟩ := Block.predicate_eq_some.mp h
    rfl
  case ash | lsh | csh | mask | not | neg =>
    obtain ⟨_, -, rfl⟩ := Block.unary_eq_some.mp h
    rfl
  case divrem =>
    obtain ⟨_, _, -, -, rfl⟩ := Block.twoResults_eq_some.mp h
    rfl
  all_goals
    obtain ⟨_, _, -, -, rfl⟩ := Block.binary_eq_some.mp h
    rfl

/-- Everything `exec` can answer. -/
theorem exec_cases (i : Instr) (s : State) :
    (s.block.fault.isSome = true ∧ exec i s = .refused .faultLatched) ∨
    (s.block.fault = none ∧ ∃ k, i.operandCause Config.reference = some k ∧ exec i s = .next (s.raise k (encode i))) ∨
    (s.block.fault = none ∧ i.operandCause Config.reference = none ∧ bodyOf i s.block = none ∧
      exec i s = .next (s.raise .unwrittenRead (encode i))) ∨
    (s.block.fault = none ∧ i.operandCause Config.reference = none ∧ ∃ c, bodyOf i s.block = some c ∧
      exec i s = .next { s with block := c, hpc := s.hpc + 1 }) := by
  rw [exec_eq_perform]
  exact ForInstance.State.perform_cases i (bodyOf i) s

/-- Everything `HostIssue` can answer. -/
theorem State.hostIssue_cases (r : Request) (s : State) :
    (s.block.fault.isSome = true ∧ State.hostIssue r s = .refused .faultLatched) ∨
    (s.block.fault = none ∧ ∃ k, decode Config.reference r = .error k ∧ State.hostIssue r s = .next (s.raise k r)) ∨
    (s.block.fault = none ∧ ∃ i, decode Config.reference r = .ok i ∧ State.hostIssue r s = exec i s) := by
  unfold State.hostIssue
  cases hf : s.block.fault with
  | some f => exact .inl ⟨rfl, by simp⟩
  | none =>
    cases hd : decode Config.reference r with
    | error k => exact .inr (.inl ⟨rfl, k, rfl, by simp⟩)
    | ok i => exact .inr (.inr ⟨rfl, i, rfl, by simp⟩)

/-- Everything a move other than `HostIssue` that answers a next state can be. -/
theorem ForInstance.State.makeMove_next_cases {m : HostMove C.W} {s t : ForInstance.State C}
    (h : s.makeMove m = .next t) :
    (∃ i v, m = .write i v ∧ i < C.NBUF ∧ t = { s with block := s.block.write i v }) ∨
    (∃ i, m = .read i ∧ i < C.NBUF ∧ t = s.see (.buffer i (s.block.read i))) ∨
    (m = .readP ∧ t = s.hostReadP) ∨ (m = .readF ∧ t = s.hostReadF) ∨ (m = .reset ∧ t = s.hostReset) := by
  cases m with
  | write i v =>
    simp only [makeMove, hostWrite] at h
    split at h <;> simp_all
  | read i =>
    simp only [makeMove, hostRead] at h
    split at h <;> simp_all
  | _ => simp_all [makeMove]

/-- Everything a step that answers a next state can be: the host has no line, makes a move, issues a request,
or takes one of its own lines. -/
theorem step_next_cases {s t : State} (h : step s = .next t) :
    (s.prog[s.hpc]? = none ∧ t = s) ∨
    (∃ m, s.prog[s.hpc]? = some (.move m) ∧ s.advance.makeMove m = .next t) ∨
    (∃ r m rest, s.prog[s.hpc]? = some (.issue r) ∧ s.block.fault.isSome = true ∧ s.afterFault = m :: rest ∧
      ({ s with afterFault := rest } : State).makeMove m = .next t) ∨
    (∃ r, s.prog[s.hpc]? = some (.issue r) ∧ s.block.fault = none ∧ State.hostIssue r s = .next t) ∨
    (∃ line, s.prog[s.hpc]? = some (.goto line) ∧ t = s.goto line) ∨
    (∃ yes no, s.prog[s.hpc]? = some (.branchP yes no) ∧ t = s.hostBranchP yes no) ∨
    (s.prog[s.hpc]? = some .ownRule ∧ t = s.hostOwnRule) := by
  unfold step ForInstance.State.turn at h
  cases hp : s.prog[s.hpc]? with
  | none => simp_all
  | some l =>
    rw [hp] at h
    cases l with
    | move m => exact .inr (.inl ⟨m, rfl, h⟩)
    | issue r =>
      cases hf : s.block.fault with
      | none =>
        simp only [hf, Option.isSome_none, Bool.false_eq_true, if_false] at h
        exact .inr (.inr (.inr (.inl ⟨r, rfl, rfl, h⟩)))
      | some f =>
        simp only [hf, Option.isSome_some, if_true, ForInstance.State.moveAfterFault] at h
        cases ha : s.afterFault with
        | nil => simp [ha] at h
        | cons m rest =>
          rw [ha] at h
          exact .inr (.inr (.inl ⟨r, m, rest, rfl, rfl, rfl, h⟩))
    | _ => simp_all

/-- A step at which the host makes a move is that move, after its line of the program, or its place among the
planned moves, is taken. -/
theorem step_of_makes {s : State} {m : HostMove Config.W} (h : s.makes m) :
    (¬ s.blocked ∧ step s = s.advance.makeMove m) ∨
    (s.blocked ∧ step s = ({ s with afterFault := s.afterFault.tail } : State).makeMove m) := by
  unfold step ForInstance.State.turn
  rcases h with h | ⟨⟨hf, r, hr⟩, hm⟩
  · refine .inl ⟨fun ⟨_, r, hr⟩ => ?_, by rw [h]⟩
    simp [h] at hr
  · obtain ⟨rest, ha⟩ := List.head?_eq_some_iff.mp hm
    refine .inr ⟨⟨hf, r, hr⟩, ?_⟩
    simp [hr, hf, ForInstance.State.moveAfterFault, ha]

/-- A step makes at most one move. -/
theorem State.makes_unique {s : State} {m n : HostMove Config.W} (hm : s.makes m) (hn : s.makes n) : m = n := by
  rcases hm with hm | ⟨⟨_, r, hr⟩, hm⟩ <;> rcases hn with hn | ⟨⟨_, q, hq⟩, hn⟩ <;> simp_all

end Sys2Proof.Machine
end

