-- ==== Sys2Proof/Tests/Slice0.lean ====
section
/-!
SUPPORT. Tests of the model's own author. Expected values come from the spec: its worked examples and test
vectors (95_test_vectors.md, cited as E, L2 and P), or a hand calculation where the comment says so. A test is
no statement for the provers. The last part shows, for every statement that has hypotheses, a state and
operands that meet them together.
-/

/-! The kernel evaluations below run one after another: started all at once they exhaust a small machine. -/

set_option Elab.async false

namespace Sys2Proof.Tests

open Sys2Proof.Machine

/-! ### Small states and ways to look at an outcome -/

/-- The next state of an outcome, if it is one. -/
def nextOf (o : Host.Outcome State Fault Refusal) : Option State :=
  match o with
  | .next s => some s
  | _ => none

theorem eq_next_of_nextOf {o : Host.Outcome State Fault Refusal} {t : State} (h : nextOf o = some t) :
    o = .next t := by
  cases o <;> simp_all [nextOf]

/-- The buffer an outcome's next state holds. -/
def bufferOf (o : Host.Outcome State Fault Refusal) (j : Nat) : Option Word := (nextOf o).bind (·.block.read j)

/-- The predicate latch of an outcome's next state. -/
def pOf (o : Host.Outcome State Fault Refusal) : Option Bool := (nextOf o).bind (·.block.p)

/-- The fault latch of an outcome's next state. -/
def faultOf (o : Host.Outcome State Fault Refusal) : Option (Cause × Request) := (nextOf o).bind (·.block.fault)

/-- The host program counter of an outcome's next state. -/
def hpcOf (o : Host.Outcome State Fault Refusal) : Option Nat := (nextOf o).map (·.hpc)

/-- After reset, `x1 ← a` and `x15 ← b`; the other buffers hold no value. -/
def two (a b : Word) : State :=
  { State.reset with block := ((Block.reset Config.reference).write 1 a).write 15 b }

/-- The same, with a host program whose only line is `h`. -/
def twoThen (a b : Word) (h : HostStep Config.W) : State := { two a b with prog := [h] }

/-- The same, with a fault latched. -/
def faultedThen (h : HostStep Config.W) : State := { two 5 7 with prog := [h], block := (two 5 7).block.raise .reservedOp 0 }

/-- A fault latched, the host at the request in line 7 that brought it, and the moves it plans for that. -/
def faultedPlan (moves : List (HostMove Config.W)) : State :=
  { two 5 7 with
    block := (two 5 7).block.raise .reservedOp 0
    prog := List.replicate 7 (.move .readP) ++ [.issue 0]
    hpc := 7
    afterFault := moves }

/-- The start state of L2.8: reset, then `HostWrite(1, 0x00000005)`, about to issue `r`. -/
def illegalStart (r : Request) : State :=
  { State.reset with block := (Block.reset Config.reference).write 1 5, prog := [.issue r] }

/-! ### Well-formedness: an ill-formed instruction for each check -/

theorem test_wf_accepts : Instr.WellFormed (.divrem 15 0 15 15) := by decide
theorem test_wf_refuses_rd : ¬ Instr.WellFormed (.add 16 1 2) := by decide
theorem test_wf_refuses_rs1 : ¬ Instr.WellFormed (.isneg 16) := by decide
theorem test_wf_refuses_rs2 : ¬ Instr.WellFormed (.sub 3 1 255) := by decide
theorem test_wf_refuses_rd2 : ¬ Instr.WellFormed (.divrem 3 16 1 1) := by decide
theorem test_wf_refuses_same_destinations : ¬ Instr.WellFormed (.divrem 3 3 1 1) := by decide

/-! ### Decoding: a word for every constructor, its fields written out by R60 to R64 -/

theorem test_decode_comparator :
    decodeTableWord 64 0x00000000000F0001 = some (.isneg 15) ∧
    decodeTableWord 64 0x0000000000090002 = some (.isnneg 9) ∧
    decodeTableWord 64 0x0000000000060003 = some (.iszero 6) := by decide

theorem test_decode_shift_mask :
    decodeTableWord 64 0xFFFFFFFC00010304 = some (.ash 3 1 (-4)) ∧
    decodeTableWord 64 0xFFFFFFFC00010405 = some (.lsh 4 1 (-4)) ∧
    decodeTableWord 64 0x8000000000010206 = some (.csh 2 1 0x80000000) ∧
    decodeTableWord 64 0x7FFFFFFF00010507 = some (.mask 5 1 0x7FFFFFFF) := by decide

theorem test_decode_logic :
    decodeTableWord 64 0x000000000F0E0D08 = some (.and 13 14 15) ∧
    decodeTableWord 64 0x0000000002010309 = some (.or 3 1 2) ∧
    decodeTableWord 64 0x000000000201030A = some (.xor 3 1 2) ∧
    decodeTableWord 64 0x000000000001070B = some (.not 7 1) ∧
    decodeTableWord 64 0x000000000002070C = some (.neg 7 2) := by decide

theorem test_decode_arithmetic :
    decodeTableWord 64 0x000000000201030D = some (.add 3 1 2) ∧
    decodeTableWord 64 0x000000000105060E = some (.sub 6 5 1) ∧
    decodeTableWord 64 0x000000000203050F = some (.mul 5 3 2) ∧
    decodeTableWord 64 0x0000000402010310 = some (.divrem 3 4 1 2) ∧
    decodeTableWord 64 0x0000000000010511 = some (.div 5 1 0) ∧
    decodeTableWord 64 0x0000000000010612 = some (.rem 6 1 0) := by decide

/-- L2.8, the rows that decoding refuses, and its two priorities between decoding's causes. -/
theorem test_decode_refuses :
    (decode Config.reference 0x0000000000000000#64, decode Config.reference 0x000000000000001F#64, decode Config.reference 0x0000000000010113#64) =
      (.error .reservedOp, .error .reservedOp, .error .reservedOp) ∧
    (decode Config.reference 0x000000000101032D#64, decode Config.reference 0x000000010101030D#64, decode Config.reference 0x000000000701030C#64,
      decode Config.reference 0x0000000000010201#64, decode Config.reference 0x0000010401010310#64) =
      (.error .reservedField, .error .reservedField, .error .reservedField, .error .reservedField,
        .error .reservedField) ∧
    (decode Config.reference 0x000000000101100D#64, decode Config.reference 0x00000000FF01030E#64, decode Config.reference 0x0000001001010310#64) =
      (.error .indexRange, .error .indexRange, .error .indexRange) ∧
    decode Config.reference 0x0000000301010310#64 = .error .destConflict ∧
    decode Config.reference 0x000000000101104D#64 = .error .reservedField ∧
    decode Config.reference 0x0000001401011410#64 = .error .indexRange := ⟨rfl, rfl, rfl, rfl, rfl, rfl⟩

/-- The encoder gives the words that 95_test_vectors.md prints for programs P1, P3 and P5. -/
theorem test_encode_words :
    encode (.mul 5 3 2) = 0x000000000203050F#64 ∧ encode (.iszero 6) = 0x0000000000060003#64 ∧
    encode (.mask 5 1 (-1)) = 0xFFFFFFFF00010507#64 ∧ encode (.neg 7 2) = 0x000000000002070C#64 ∧
    encode (.divrem 8 8 2 2) = 0x0000000802020810#64 := by decide

/-- `add x3, x1, x2` as bytes, least significant first (R42), with one byte after it. -/
theorem test_decode_bytes :
    decodeBytes Config.reference [0x0D, 0x03, 0x01, 0x02, 0, 0, 0, 0, 0xAA] = some (.ok (.add 3 1 2), [0xAA]) := rfl

/-- A listing that is too short holds no request. -/
theorem test_decode_bytes_short : decodeBytes Config.reference [0x0D, 0x03, 0x01, 0x02, 0, 0, 0] = none := rfl

/-! ### The units, at W = 4 and W = 32 (E1 to E8, L2.1 to L2.6) -/

theorem test_predicates :
    (coreIsneg 0b0000#4, coreIsneg 0b1000#4, coreIsneg 0b0111#4) = (false, true, false) ∧
    (coreIsnneg 0b0000#4, coreIsnneg 0b1000#4, coreIsnneg 0b0111#4) = (true, false, true) ∧
    (coreIszero 0b0000#4, coreIszero 0b1000#4, coreIszero 0b0001#4) = (true, false, false) := by decide +kernel

theorem test_ash :
    coreAsh 1 0b1010#4 = 0b0100#4 ∧ coreAsh (-1) 0b1111#4 = 0b1111#4 ∧ coreAsh 0 0b0011#4 = 0b0011#4 ∧
    coreAsh 4 0b0011#4 = 0b1000#4 ∧ coreAsh (-9) 0b1000#4 = 0b1111#4 ∧
    coreAsh (-2147483648) 0b1000#4 = 0b1111#4 ∧ coreAsh (-4) 0x80000001#32 = 0xF8000000#32 ∧
    coreAsh 40 0x80000001#32 = 0x80000000#32 := by decide +kernel

theorem test_lsh :
    coreLsh (-1) 0b1111#4 = 0b0111#4 ∧ coreLsh (-4) 0b1111#4 = 0b0001#4 ∧ coreLsh 4 0b0001#4 = 0b1000#4 ∧
    coreLsh 0 0b1001#4 = 0b1001#4 ∧ coreLsh 1 0b1001#4 = 0b0010#4 ∧
    coreLsh (-32) 0xFFFFFFFF#32 = 0x00000001#32 := by decide +kernel

theorem test_csh :
    coreCsh 1 0b1001#4 = 0b0011#4 ∧ coreCsh (-1) 0b1001#4 = 0b1100#4 ∧ coreCsh 4 0b1001#4 = 0b1001#4 ∧
    coreCsh (-6) 0b1001#4 = 0b0110#4 ∧ coreCsh 0 0b1001#4 = 0b1001#4 ∧
    coreCsh 36 0x12345678#32 = 0x23456781#32 ∧ coreCsh (-2147483648) 0x12345678#32 = 0x12345678#32 := by
  decide +kernel

theorem test_mask :
    coreMask 2 0b1011#4 = 0b0011#4 ∧ coreMask (-2) 0b1011#4 = 0b1000#4 ∧ coreMask 0 0b1011#4 = 0b0000#4 ∧
    coreMask 4 0b1011#4 = 0b1011#4 ∧ coreMask (-4) 0b1011#4 = 0b1011#4 ∧
    coreMask (-8) 0x12345678#32 = 0x12000000#32 := by decide +kernel

theorem test_logic :
    coreAnd 0b1100#4 0b1010#4 = 0b1000#4 ∧ coreOr 0b1100#4 0b1010#4 = 0b1110#4 ∧
    coreXor 0b1100#4 0b1010#4 = 0b0110#4 ∧ coreNot 0b0111#4 = 0b1000#4 ∧
    coreNeg 0b0011#4 = 0b1101#4 ∧ coreNeg 0b1000#4 = 0b1000#4 ∧
    coreXor 0xFFFF0000#32 0x0F0F0F0F#32 = 0xF0F00F0F#32 := by decide +kernel

theorem test_add_sub :
    coreAdd 0b0111#4 0b0001#4 = 0b1000#4 ∧ coreAdd 0b1111#4 0b0001#4 = 0b0000#4 ∧
    coreSub 0b1000#4 0b0001#4 = 0b0111#4 ∧ coreSub 0b0011#4 0b0101#4 = 0b1110#4 ∧
    coreAdd 0xFFFFFFFF#32 1#32 = 0#32 ∧ coreSub 0#32 1#32 = 0xFFFFFFFF#32 := by decide +kernel

theorem test_mul :
    coreMul 0b0011#4 0b1101#4 = 0b0111#4 ∧ coreMul 0b1000#4 0b1111#4 = 0b1000#4 ∧
    coreMul 0b0100#4 0b0100#4 = 0b0000#4 ∧ coreMul 0b1101#4 0b0000#4 = 0b0000#4 ∧
    coreMul 0xFFFFFFFD#32 3#32 = 0xFFFFFFF7#32 := by decide +kernel

theorem test_divcore :
    divcore 0b0111#4 0b0010#4 = (0b0011#4, 0b0001#4) ∧ divcore 0b1001#4 0b0010#4 = (0b1101#4, 0b1111#4) ∧
    divcore 0b0111#4 0b1110#4 = (0b1101#4, 0b0001#4) ∧ divcore 0b1001#4 0b1110#4 = (0b0011#4, 0b1111#4) ∧
    divcore 0b0000#4 0b0000#4 = (0b0111#4, 0b0000#4) ∧ divcore 0b1011#4 0b0000#4 = (0b1000#4, 0b0000#4) ∧
    divcore 0b1000#4 0b1111#4 = (0b1000#4, 0b0000#4) ∧ divcore 0b0111#4 0b1000#4 = (0b0000#4, 0b0111#4) := by
  decide +kernel

theorem test_divcore_wide :
    divcore 0xFFFFFF85#32 0x00000005#32 = (0xFFFFFFE8#32, 0xFFFFFFFD#32) ∧
    divcore 0x80000000#32 0x80000000#32 = (0x00000001#32, 0x00000000#32) := by decide +kernel

/-! ### One instruction on the machine -/

theorem test_isneg_latches : pOf (exec (.isneg 1) (two 0x80000000 0)) = some true := by decide +kernel
theorem test_isnneg_latches : pOf (exec (.isnneg 1) (two 0x7FFFFFFF 0)) = some true := by decide +kernel
theorem test_iszero_latches : pOf (exec (.iszero 15) (two 1 0)) = some true := by decide +kernel

/-- P3 line 5, in place: the sign bit is lost. -/
theorem test_ash_in_place : bufferOf (exec (.ash 1 1 1) (two 0x80000001 0)) 1 = some 2 := by decide +kernel

/-- P3 lines 2, 0 and 3. -/
theorem test_lsh_right : bufferOf (exec (.lsh 4 1 (-4)) (two 0x80000001 0)) 4 = some 0x08000000 := by decide +kernel
theorem test_csh_left : bufferOf (exec (.csh 2 1 4) (two 0x80000001 0)) 2 = some 0x18 := by decide +kernel
theorem test_mask_high : bufferOf (exec (.mask 5 1 (-1)) (two 0x80000001 0)) 5 = some 0x80000000 := by decide +kernel

/-- By hand, from R140 to R143. -/
theorem test_and_word : bufferOf (exec (.and 3 1 15) (two 0xFF00FF00 0x0FF00FF0)) 3 = some 0x0F000F00 := by
  decide +kernel
theorem test_or_word : bufferOf (exec (.or 3 1 15) (two 0xFF00FF00 0x0FF00FF0)) 3 = some 0xFFF0FFF0 := by
  decide +kernel
theorem test_xor_word : bufferOf (exec (.xor 3 1 15) (two 0xFFFF0000 0x0F0F0F0F)) 3 = some 0xF0F00F0F := by
  decide +kernel
theorem test_not_word : bufferOf (exec (.not 7 1) (two 0x0F0F0F0F 0)) 7 = some 0xF0F0F0F0 := by decide +kernel

/-- P5 line 4. -/
theorem test_neg_word : bufferOf (exec (.neg 7 15) (two 0 0xFFFFFFFF)) 7 = some 1 := by decide +kernel

/-- P1 lines 2 and 3: the destination of the first is also its source. -/
theorem test_add_in_place : bufferOf (exec (.add 1 1 15) (two 0xFFFFFFFA 0xFFFFFFFF)) 1 = some 0xFFFFFFF9 := by
  decide +kernel
theorem test_sub_equal : bufferOf (exec (.sub 6 1 15) (two 0xFFFFFFF9 0xFFFFFFF9)) 6 = some 0 := by decide +kernel

/-- P1 line 1. -/
theorem test_mul_word : bufferOf (exec (.mul 5 1 15) (two 0xFFFFFFFD 2)) 5 = some 0xFFFFFFFA := by decide +kernel

/-- P1 line 0: quotient and remainder each in its own buffer. -/
theorem test_divrem_both :
    bufferOf (exec (.divrem 3 4 1 15) (two 0xFFFFFFF9 2)) 3 = some 0xFFFFFFFD ∧
    bufferOf (exec (.divrem 3 4 1 15) (two 0xFFFFFFF9 2)) 4 = some 0xFFFFFFFF := by decide +kernel

/-- P5 line 0 written over its own sources: both are read before either is written (R45, R273). -/
theorem test_divrem_over_sources :
    bufferOf (exec (.divrem 15 1 1 15) (two 0x80000000 0xFFFFFFFF)) 15 = some 0x80000000 ∧
    bufferOf (exec (.divrem 15 1 1 15) (two 0x80000000 0xFFFFFFFF)) 1 = some 0 := by decide +kernel

/-- P5 lines 1 and 2. -/
theorem test_div_by_zero : bufferOf (exec (.div 5 1 15) (two 0x80000000 0)) 5 = some 0x80000000 := by decide +kernel
theorem test_rem_by_zero : bufferOf (exec (.rem 6 1 15) (two 0x80000000 0)) 6 = some 0 := by decide +kernel

/-- A completed request advances `hpc`; an illegal one does not (R29, R244). -/
theorem test_hpc :
    hpcOf (exec (.add 3 1 15) (two 1 2)) = some 1 ∧ hpcOf (exec (.add 3 1 2) (two 1 2)) = some 0 := by decide +kernel

/-! ### Steps -/

/-- L2.8: every row, from issue to the latched cause and word. -/
theorem test_illegal_requests :
    ([(0x0000000000000000, 1), (0x000000000000001F, 1), (0x0000000000010113, 1), (0x000000000101032D, 2),
      (0x000000010101030D, 2), (0x000000000701030C, 2), (0x0000000000010201, 2), (0x0000010401010310, 2),
      (0x000000000101100D, 3), (0x00000000FF01030E, 3), (0x0000001001010310, 3), (0x0000000301010310, 4),
      (0x000000000201030D, 5), (0x0000000000090001, 5), (0x000000000101104D, 2), (0x0000001401011410, 3),
      (0x0000000302020310, 4)] : List (Request × Nat)).all (fun row =>
        ((faultOf (step (illegalStart row.1))).map fun f => (f.1.code, f.2)) == some (row.2, row.1)) = true := by
  decide +kernel

/-- After a fault any further issue has no step (L2.8). -/
theorem test_issue_after_fault :
    step (faultedThen (.issue 0x000000000101030D)) = .refused .faultLatched := rfl

/-- The first step after reset runs the fetched word: its sources hold no value (R272). -/
theorem test_first_step_from_reset :
    faultOf (step (State.reset.withFetchWord 64 0x000000000201030D)) =
      some (.unwrittenRead, 0x000000000201030D) := by decide +kernel

/-- The host writes, reads and branches. -/
theorem test_host_moves :
    bufferOf (step (twoThen 1 2 (.move (.write 3 9)))) 3 = some 9 ∧
    step (twoThen 1 2 (.move (.write 16 9))) = .fault (.noSuchBuffer 16) ∧
    (nextOf (step (twoThen 1 2 (.move (.read 15))))).map (·.reads) = some [.buffer 15 (some 2)] ∧
    (nextOf (step (twoThen 1 2 (.move (.read 0))))).map (·.reads) = some [.buffer 0 none] ∧
    hpcOf (step { twoThen 1 2 (.branchP 5 2) with block := (two 1 2).block.latchP true }) = some 5 :=
  ⟨by decide +kernel, rfl, by decide +kernel, by decide +kernel, by decide +kernel⟩

theorem test_reset_clears_the_latch :
    faultOf (step (faultedThen (.move .reset))) = none ∧
    bufferOf (step (faultedThen (.move .reset))) 1 = none := by decide +kernel

/-- A request with no step: the host makes the moves it plans, `hpc` stays, and Reset starts it again (R245). -/
theorem test_moves_after_fault :
    (nextOf (step (faultedPlan [.readF, .reset]))).map (fun t => (t.reads, t.hpc, t.afterFault)) =
      some ([.faultLatch (some (.reservedOp, 0))], 7, [.reset]) ∧
    (nextOf (step (faultedPlan [.reset, .readP]))).map (fun t => (t.block.fault, t.hpc, t.afterFault)) =
      some (none, 0, [.readP]) := by decide +kernel

theorem test_idle : nextOf (step State.reset) = some State.reset := by decide +kernel

/-- Another instance: 4-bit words and 3 buffers, `div x2, x0, x1` on 7 and 2 (E8), and an index of 3 (R67). -/
def smallInstance (r : Request) : ForInstance.State ⟨4, 3, by decide, by decide, by decide⟩ :=
  { ForInstance.State.reset _ with block := ((Block.reset _).write 0 0b0111#4).write 1 0b0010#4, prog := [.issue r] }

theorem test_small_instance :
    (match (smallInstance 0x01000211).step with | .next t => t.block.read 2 | _ => none) = some 0b0011#4 ∧
    (match (smallInstance 0x01000311).step with | .next t => t.block.fault | _ => none) =
      some (.indexRange, 0x01000311) := by decide +kernel

/-! ### Ports and assembler -/

/-- E8 on the ports: the quotient on Y, the remainder on Y2. -/
theorem test_ports_divrem :
    (portView 0 ⟨0x10, 0b0111#4, 0b0010#4, 0⟩).y = 0b0011#4 ∧ (portView 0 ⟨0x10, 0b0111#4, 0b0010#4, 0⟩).y2 = 0b0001#4 := by
  decide +kernel

/-- E1 on the ports: the count comes from CNT. -/
theorem test_ports_ash : (portView 0 ⟨0x04, 0b1010#4, 0b0000#4, 1⟩).y = 0b0100#4 := by decide +kernel

/-- L2.7 from assembly text. -/
theorem test_assemble :
    assembleWord Config.reference "add x3, x1, x2".toList = some 0x000000000201030D#64 ∧
    assembleWord Config.reference "ash x2, x1, -1".toList = some 0xFFFFFFFF00010204#64 ∧
    assembleWord Config.reference "divrem x3, x4, x1, x2".toList = some 0x0000000402010310#64 ∧
    assembleWord Config.reference "isneg x5".toList = some 0x0000000000050001#64 ∧
    assembleWord Config.reference "not x7, x1".toList = some 0x000000000001070B#64 := by decide +kernel

/-- Hexadecimal counts, pseudo-instructions and their bounds (R74, R75). -/
theorem test_assemble_counts :
    assemble Config.reference "lsh x2, x1, 0xFFFFFFFF".toList = some (.lsh 2 1 (-1)) ∧
    assemble Config.reference "shr x2, x1, 2147483648".toList = some (.lsh 2 1 0x80000000) ∧
    assemble Config.reference "shl x2, x1, 2147483648".toList = none ∧
    assemble Config.reference "mov x2, x1".toList = some (.or 2 1 1) ∧
    assemble Config.reference "add x16, x1, x1".toList = none ∧
    assemble Config.reference "add x01, x1, x1".toList = none ∧
    assemble Config.reference "add x0, x10, x15".toList = some (.add 0 10 15) := by decide +kernel

/-! ### Witnesses: the hypotheses of each statement, met together -/

/-- `two 5 7` and operands x15, x1: a state and sources that every format can use, with the topmost buffer. -/
theorem witness_readable_sources :
    (two 5 7).block.fault = none ∧ (two 5 7).block.read (1 : Index).toNat = some 5 ∧
    (two 5 7).block.read (15 : Index).toNat = some 7 := by decide +kernel

/-- The instance with the most buffers, and the shortest words. -/
def widest : Config.Params :=
  { W := 2, NBUF := 256, two_le_W := by decide, one_le_NBUF := by decide, NBUF_le := by decide }

theorem witness_DecodeOfEncodeIsIdentity : (Instr.divrem 255 0 255 255).wf widest = true := by decide

theorem witness_DecodedWordIsItsEncoding : decode widest 0x000000FFFFFF0010#64 = .ok (.divrem 0 255 255 255) := rfl

/-- The request word whose count is the most negative one, and a word length. -/
theorem witness_CountIsTwosComplementOfX :
    (0x8000000000010206 : Request).count = 0x80000000 ∧ (2 : Nat) ≤ 2 := by decide

theorem witness_PseudoInstructionsExpand :
    ((15 : Index).toNat < Config.NBUF ∧ (1 : Index).toNat < Config.NBUF ∧ (two 5 7).block.fault = none ∧
      (two 5 7).block.read (1 : Index).toNat = some 5) ∧
    pseudoShl 1 1 (2 ^ 31 - 1) = some (.lsh 1 1 0x7FFFFFFF) ∧ pseudoShl 1 1 (2 ^ 31) = none ∧
    pseudoShr 1 1 (2 ^ 31) = some (.lsh 1 1 0x80000000) ∧ pseudoShr 1 1 (2 ^ 31 + 1) = none ∧
    pseudoShr 1 1 (-1) = none ∧ pseudoShl 1 1 0 = some (.lsh 1 1 0) := by decide +kernel

theorem witness_ReservedOpIsIllegal :
    (illegalStart 0x13).prog[(illegalStart 0x13).hpc]? = some (.issue 0x13) ∧
    (illegalStart 0x13).block.fault = none ∧ 0x13 ≤ (0x13 : Request).toNat % 32 ∧ (0 : Request).toNat % 32 = 0 := by
  decide +kernel

theorem witness_ReservedFieldIsIllegal :
    (illegalStart 0x101032D).prog[(illegalStart 0x101032D).hpc]? = some (.issue 0x101032D) ∧
    (illegalStart 0x101032D).block.fault = none ∧ definedOp 0x101032D = true ∧ fieldBitSet 0x101032D = true := by
  decide +kernel

/-- Each clause of `fieldBitSet`, at its last bit: Z, RD in format P, RS2 in format U, `r[40]` in format D, and
`r[63]` in format B; and the greatest count and RD2 do not set it. -/
theorem witness_fieldBitSet_clauses :
    fieldBitSet 0x000000000101038D = true ∧ fieldBitSet 0x0000000000018001 = true ∧
    fieldBitSet 0x000000008001030C = true ∧ fieldBitSet 0x0000010401010310 = true ∧
    fieldBitSet 0x800000000101030D = true ∧ fieldBitSet 0xFFFFFFFF00010204 = false ∧
    fieldBitSet 0x000000FF02010310 = false := by decide +kernel

theorem witness_IndexRangeIsIllegal :
    (illegalStart 0x101100D).prog[(illegalStart 0x101100D).hpc]? = some (.issue 0x101100D) ∧
    (illegalStart 0x101100D).block.fault = none ∧ definedOp 0x101100D = true ∧
    fieldBitSet 0x101100D = false ∧ indexOutside Config.reference 0x101100D = true ∧
    indexOutside Config.reference 0x1010F0D = false ∧ widest.NBUF = 256 := by decide +kernel

theorem witness_DestConflictIsIllegal :
    (two 5 7).block.fault = none ∧ (15 : Index).toNat < Config.NBUF ∧ (1 : Index).toNat < Config.NBUF ∧
    (illegalStart (encode (.divrem 15 15 1 1))).prog[(illegalStart 0).hpc]? =
      some (.issue (encode (.divrem 15 15 1 1))) := by decide +kernel

theorem witness_UnwrittenSourceIsIllegal :
    Instr.WellFormed (.add 3 1 2) ∧ (two 5 7).block.fault = none ∧
    (2 ∈ sources (.add 3 1 2) ∧ (two 5 7).block.read 2 = none) := by decide +kernel

/-- Each cause, on the words of L2.8. -/
theorem witness_FirstCauseThatAppliesIsLatched :
    (illegalStart 0x0000000302020310).block.fault = none ∧
    firstCause (illegalStart 0).block 0x13 = some .reservedOp ∧
    firstCause (illegalStart 0).block 0x000000000101104D = some .reservedField ∧
    firstCause (illegalStart 0).block 0x0000001401011410 = some .indexRange ∧
    firstCause (illegalStart 0).block 0x0000000302020310 = some .destConflict ∧
    firstCause (illegalStart 0).block 0x000000000201030D = some .unwrittenRead ∧
    (illegalStart 0x0000000302020310).prog[(illegalStart 0x0000000302020310).hpc]? =
      some (.issue 0x0000000302020310) := by decide +kernel

theorem witness_FaultEntryIsPrecise :
    step (illegalStart 0x13) = .next ((illegalStart 0x13).raise .reservedOp 0x13) ∧
    (illegalStart 0x13).block.fault = none ∧
    ((illegalStart 0x13).raise .reservedOp 0x13).block.fault = some (.reservedOp, 0x13) := ⟨rfl, rfl, rfl⟩

/-- A faulted state at a move of its program, and one at a request with planned moves: each of the moves. -/
theorem witness_FaultLatchBlocksUntilReset :
    ((faultedPlan [.readF]).block.fault.isSome = true ∧ (faultedPlan [.readF]).makes .readF) ∧
    ((faultedPlan [.readP]).block.fault.isSome = true ∧ (faultedPlan [.readP]).makes .readP) ∧
    ((faultedPlan [.reset]).block.fault.isSome = true ∧ (faultedPlan [.reset]).makes .reset) ∧
    ((faultedThen (.move (.read 15))).block.fault.isSome = true ∧
      (faultedThen (.move (.read 15))).makes (.read 15)) :=
  ⟨⟨rfl, .inr ⟨⟨rfl, 0, rfl⟩, rfl⟩⟩, ⟨rfl, .inr ⟨⟨rfl, 0, rfl⟩, rfl⟩⟩, ⟨rfl, .inr ⟨⟨rfl, 0, rfl⟩, rfl⟩⟩,
    rfl, .inl rfl⟩

/-- The latch of the faulted state is sound, and it steps. -/
theorem witness_EveryStepKeepsTheLatchSound :
    (faultedThen (.move .readF)).block.latchSound ∧
    step (faultedThen (.move .readF)) = .next (faultedThen (.move .readF)).advance.hostReadF := by
  refine ⟨fun k r h => ?_, rfl⟩
  obtain ⟨rfl, rfl⟩ : Cause.reservedOp = k ∧ (0 : Request) = r := by
    simpa [faultedThen, Block.raise] using h
  exact .inl rfl

theorem witness_ResetLeavesNoValue :
    (faultedThen (.move .reset)).makes .reset ∧ (faultedPlan [.reset]).makes .reset ∧
    (faultedPlan [.reset]).block.fault.isSome = true ∧
    (nextOf (step (faultedPlan [.reset]))).isSome = true ∧ faultOf (step (faultedPlan [.reset])) = none :=
  ⟨.inl rfl, .inr ⟨⟨rfl, 0, rfl⟩, rfl⟩, rfl, by decide +kernel, by decide +kernel⟩

theorem witness_HostWriteStoresTheWord :
    (twoThen 5 7 (.move (.write 15 9))).makes (.write 15 9) ∧ (faultedPlan [.write 15 9]).makes (.write 15 9) ∧
    15 < Config.NBUF ∧ (twoThen 5 7 (.move (.write 16 9))).makes (.write 16 9) ∧ Config.NBUF ≤ 16 :=
  ⟨.inl rfl, .inr ⟨⟨rfl, 0, rfl⟩, rfl⟩, by decide, .inl rfl, by decide⟩

theorem witness_HostReadsHaveNoSideEffect :
    (twoThen 5 7 (.move (.read 15))).makes (.read 15) ∧ (twoThen 5 7 (.move (.read 16))).makes (.read 16) ∧
    (twoThen 5 7 (.move .readP)).makes .readP ∧ (faultedPlan [.readF]).makes .readF :=
  ⟨.inl rfl, .inl rfl, .inl rfl, .inr ⟨⟨rfl, 0, rfl⟩, rfl⟩⟩

theorem witness_HostLinesAndPlannedMoves :
    (twoThen 5 7 (.goto 3)).prog[(twoThen 5 7 (.goto 3)).hpc]? = some (.goto 3) ∧
    (twoThen 5 7 (.branchP 5 2)).prog[(twoThen 5 7 (.branchP 5 2)).hpc]? = some (.branchP 5 2) ∧
    ((two 5 7).block.latchP false).p = some false ∧ (two 5 7).block.p = none ∧
    (twoThen 5 7 .ownRule).prog[(twoThen 5 7 .ownRule).hpc]? = some .ownRule ∧
    (two 5 7).prog[(two 5 7).hpc]? = none ∧
    ((faultedPlan []).blocked ∧ (faultedPlan []).afterFault = []) ∧
    ((faultedPlan [.reset]).blocked ∧ (faultedPlan [.reset]).afterFault = .reset :: []) :=
  ⟨rfl, rfl, rfl, by decide +kernel, rfl, rfl, ⟨⟨rfl, 0, rfl⟩, rfl⟩, ⟨rfl, 0, rfl⟩, rfl⟩

theorem witness_StepRunsTheDecodedInstruction :
    (twoThen 5 7 (.issue 0xF01030D)).prog[(twoThen 5 7 (.issue 0xF01030D)).hpc]? = some (.issue 0xF01030D) ∧
    decode Config.reference 0xF01030D = .ok (.add 3 1 15) ∧
    ((twoThen 5 7 (.issue 0xF01030D)).block.fault = none ∨ (twoThen 5 7 (.issue 0xF01030D)).afterFault = []) :=
  ⟨rfl, rfl, .inr rfl⟩

/-- A completed request, and one that entered the fault. -/
theorem witness_EveryInstructionKeepsItsFrame :
    (nextOf (exec (.add 3 1 15) (two 5 7))).isSome = true ∧ faultOf (exec (.add 3 1 15) (two 5 7)) = none ∧
    (faultOf (exec (.add 3 1 2) (two 5 7))).isSome = true := by decide +kernel

/-- An instruction with two destinations and one with none, both with readable sources. -/
theorem witness_EveryInstructionCompletes :
    Instr.WellFormed (.divrem 0 15 1 15) ∧ Instr.WellFormed (.isneg 15) ∧ (two 5 7).block.fault = none ∧
    (∀ j ∈ sources (.divrem 0 15 1 15), ((two 5 7).block.read j).isSome = true) ∧
    (∀ j ∈ sources (.isneg 15), ((two 5 7).block.read j).isSome = true) ∧
    (twoThen 5 7 (.issue 0xF01030D)).prog[(twoThen 5 7 (.issue 0xF01030D)).hpc]? = some (.issue 0xF01030D) ∧
    (twoThen 5 7 (.issue 0xF01030D)).block.fault = none ∧
    firstCause (twoThen 5 7 (.issue 0xF01030D)).block 0xF01030D = none := by decide +kernel

/-- Two different states that agree on the sources, and the completed instruction. -/
theorem witness_ResultDependsOnlyOnOperands :
    two 5 7 ≠ twoThen 5 7 (.move .readF) ∧
    (∀ j ∈ sources (.add 3 1 15), (two 5 7).block.read j = (twoThen 5 7 (.move .readF)).block.read j) ∧
    (nextOf (exec (.add 3 1 15) (two 5 7))).isSome = true ∧
    (nextOf (exec (.add 3 1 15) (twoThen 5 7 (.move .readF)))).isSome = true ∧
    faultOf (exec (.add 3 1 15) (two 5 7)) = none := by decide +kernel

theorem witness_OnlyPredicatesWriteP :
    pOf (step (twoThen 5 7 (.issue 0x10001))) = some false ∧ (twoThen 5 7 (.issue 0x10001)).block.p = none := by
  decide +kernel

theorem witness_OnlyDestinationsAndHostWritesChangeBuffers :
    bufferOf (step (twoThen 5 7 (.issue 0xF01030D))) 3 = some 12 ∧
    (twoThen 5 7 (.issue 0xF01030D)).block.read 3 = none := by decide +kernel

theorem witness_WrittenStateStaysWritten :
    (nextOf (step (twoThen 5 7 (.issue 0xF01010D)))).isSome = true ∧
    ¬ (twoThen 5 7 (.issue 0xF01010D)).makes .reset ∧
    ((twoThen 5 7 (.issue 0xF01010D)).block.read 1).isSome = true ∧
    ((two 5 7).block.latchP true).p.isSome = true := by
  refine ⟨by decide +kernel, ?_, by decide +kernel, rfl⟩
  rintro (h | ⟨⟨h, -⟩, -⟩)
  · exact absurd h (by decide +kernel)
  · exact absurd h (by decide +kernel)

/-! The result statements: a well-formed instruction with a destination that is also a source and with the
topmost buffer, `F` holding no value, and every source holding a word. -/

/-- The hypotheses of a result statement about `i`, at the state `s`. -/
abbrev Ready (i : Instr) (s : State) : Prop :=
  i.WellFormed ∧ s.block.fault = none ∧ ∀ j ∈ sources i, (s.block.read j).isSome = true

theorem witness_IsnegLatchesTheSignBit : Ready (.isneg 15) (two 5 7) := by decide +kernel
theorem witness_IsnnegLatchesTheComplementedSignBit : Ready (.isnneg 15) (two 5 7) := by decide +kernel
theorem witness_IszeroLatchesWhetherAllBitsAreZero : Ready (.iszero 15) (two 5 7) := by decide +kernel
theorem witness_AndOrXorCombineBitwise : Ready (.and 15 1 15) (two 5 7) := by decide +kernel
theorem witness_NotComplementsBitwise : Ready (.not 15 15) (two 5 7) := by decide +kernel
theorem witness_NegWritesTheNegation : Ready (.neg 15 15) (two 5 7) := by decide +kernel
theorem witness_AddWritesTheWrappedSum : Ready (.add 15 1 15) (two 5 7) := by decide +kernel
theorem witness_SubWritesTheWrappedDifference : Ready (.sub 15 1 15) (two 5 7) := by decide +kernel
theorem witness_MulWritesTheWrappedProduct : Ready (.mul 15 1 15) (two 5 7) := by decide +kernel

/-- A zero divisor, with a dividend of either sign, and one that is not zero. -/
theorem witness_DivremWritesQuotientAndRemainder :
    Ready (.divrem 15 1 1 15) (two 5 7) ∧ Ready (.divrem 15 1 1 15) (two 5 0) ∧ (two 5 0).block.read (15 : Index).toNat = some 0 ∧
    (two 0x80000000 0).block.read (1 : Index).toNat = some 0x80000000 ∧
    0 ≤ (0 : Word).toInt ∧ ¬ 0 ≤ (0x80000000 : Word).toInt ∧ (7 : Word) ≠ 0 := by decide +kernel

theorem witness_DivAndRemWriteOneOfTheTwo :
    Ready (.div 15 1 15) (two 5 7) ∧ Ready (.div 15 1 15) (two 5 0) ∧ (two 5 0).block.read (15 : Index).toNat = some 0 ∧ (7 : Word) ≠ 0 := by
  decide +kernel

/-- A count in each clause, at its ends: the least and greatest positive, the least and greatest negative, 0. -/
theorem witness_AshShiftsArithmetically :
    Ready (.ash 15 15 1) (two 5 7) ∧ 0 < (1 : Count).toInt ∧ 0 < (0x7FFFFFFF : Count).toInt ∧
    (0x80000000 : Count).toInt < 0 ∧ (-1 : Count).toInt < 0 ∧
    ¬ 0 < (0 : Count).toInt ∧ ¬ (0 : Count).toInt < 0 := by decide +kernel

theorem witness_LshShiftsLogically :
    Ready (.lsh 15 15 1) (two 5 7) ∧ 0 < (1 : Count).toInt ∧ (-1 : Count).toInt < 0 ∧
    ¬ 0 < (0 : Count).toInt ∧ ¬ (0 : Count).toInt < 0 := by decide +kernel

/-- A rotation to the left, to the right, and by multiples of the word length. -/
theorem witness_CshRotates :
    Ready (.csh 15 15 1) (two 5 7) ∧ 0 ≤ (1 : Count).toInt ∧ ¬ 0 ≤ (-1 : Count).toInt ∧
    (0 : Count).toInt.natAbs % Config.W = 0 ∧ (0x80000000 : Count).toInt.natAbs % Config.W = 0 ∧
    (31 : Count).toInt.natAbs % Config.W ≠ 0 := by decide +kernel

theorem witness_MaskKeepsTheNamedBits :
    Ready (.mask 15 15 1) (two 5 7) ∧ 0 < (32 : Count).toInt ∧ (-32 : Count).toInt < 0 ∧
    ¬ 0 < (0 : Count).toInt ∧ ¬ (0 : Count).toInt < 0 := by decide +kernel

/-- The unit statements, at the least word length they speak of. Nothing else is assumed by ConstantsHaveTheirBits,
NegationAndSubtractionAgree, CircularShiftIsABijection, MagnitudeIsTheAbsoluteValue and, as an instance,
MultiplierLoopEndsWithinTheWordLength, MultiplierComputesTheProduct and DivisionByZeroSaturates. -/
theorem witness_word_length : (2 : Nat) ≤ 2 ∧ Nat.AtLeastTwo 2 := ⟨by decide, inferInstance⟩

/-- A count in each clause. -/
theorem witness_ShiftMaskClosedForms : (2 : Nat) ≤ 2 ∧ (0 : Int) < 1 ∧ (-1 : Int) < 0 ∧ (0 : Int) = 0 := by decide

theorem witness_ArithmeticShiftRoundTrip : (2 : Nat) ≤ 2 ∧ (-1 : Int) < 0 ∧ (0 : Int) < 1 := by decide

theorem witness_LogicUnitLaws : (0b01#2).getLsbD 0 = (0b11#2).getLsbD 0 ∧ 0b01#2 ≠ 0b11#2 := by decide

theorem witness_RestoringLoopDividesMagnitudes :
    (0b10#2).toNat ≠ 0 ∧ (0b10#2).toNat ≤ 2 ^ (2 - 1) ∧ (0b11#2).toNat < 2 * (0b10#2).toNat ∧
    (0b10#2).toNat ≤ 2 ^ (2 - 1) := by decide

theorem witness_DividerComputesTruncatedDivision :
    (0b11#2) ≠ zeroWord 2 ∧ ((0b01#2) ≠ minWord 2 ∨ (0b11#2) ≠ BitVec.allOnes 2) := by decide

/-- A quotient and a remainder that are not zero, away from `MINW / −1`. -/
theorem witness_DivisionIdentity :
    (0b0010#4) ≠ zeroWord 4 ∧ coreDiv 0b1001#4 0b0010#4 ≠ zeroWord 4 ∧
    ¬(0b1001#4 = minWord 4 ∧ 0b0010#4 = BitVec.allOnes 4) ∧ coreRem 0b1001#4 0b0010#4 ≠ zeroWord 4 := by
  decide +kernel

/-- An operation of each kind of result. -/
theorem witness_PortsCarryTheCoreResult :
    opcodeMap (0x10 : BitVec 5).toNat 0 0 0 0 0 = some (.D, .divrem 0 0 0 0) ∧
    coreResult (.divrem 0 0 0 0) 0b0111#4 0b0010#4 = .two 0b0011#4 0b0001#4 ∧
    coreResult (.isneg 0) 0b1000#4 0 = .pred true ∧ coreResult (.not 0 0) 0b1010#4 0 = .one 0b0101#4 := by
  decide +kernel

end Sys2Proof.Tests
end

/-!
The count of format S: the field X = r[63:32] read in two's complement (R62), its range, and the amounts the
operations make of its exact magnitude (R6, R110).
-/

namespace Sys2Proof

/-- Nothing lies above `r[63]`, so the field X is the whole quotient by `2 ^ 32`. -/
theorem Request.count_toNat (r : Request) : r.count.toNat = r.toNat / 2 ^ 32 := by
  have hr : r.toNat / 2 ^ 32 < 2 ^ 32 := Nat.div_lt_of_lt_mul r.isLt
  rw [Request.count, BitVec.extractLsb'_toNat, Nat.shiftRight_eq_div_pow, Nat.mod_eq_of_lt hr]

end Sys2Proof

namespace Sys2Proof.Machine

theorem countOf_eq_toNat_cond (c : Count) :
    countOf c = if c.toNat < 2 ^ 31 then (c.toNat : Int) else (c.toNat : Int) - 2 ^ 32 := by
  have hsign : 2 * c.toNat < 2 ^ 32 ↔ c.toNat < 2 ^ 31 := by omega
  simp only [countOf, BitVec.toInt_eq_toNat_cond, hsign, Nat.cast_pow, Nat.cast_ofNat]

theorem neg_two_pow_le_countOf (c : Count) : -(2 ^ 31) ≤ countOf c := c.le_toInt

theorem countOf_le (c : Count) : countOf c ≤ 2 ^ 31 - 1 := Int.le_sub_one_of_lt c.toInt_lt

/-- The most negative count: its magnitude `2 ^ 31` is not itself a count. -/
theorem countOf_intMin : countOf 0x80000000 = -(2 ^ 31) := by decide

/-- Settles O5: R62's reading is that of the field's number, and the amounts take the magnitude of the most
negative count unwrapped because they are made in `Int`, not in `Count`. -/
theorem countIsTwosComplementOfX : Obligations.CountIsTwosComplementOfX := by
  intro r
  refine ⟨?reading, neg_two_pow_le_countOf r.count, countOf_le r.count, ?amounts⟩
  case reading =>
    rw [← r.count_toNat]
    exact countOf_eq_toNat_cond r.count
  case amounts =>
    intro hX
    have hc : countOf r.count = -(2 ^ 31) := by rw [hX, countOf_intMin]
    have habs : (countOf r.count).natAbs = 2 ^ 31 := by rw [hc]; decide
    exact ⟨hc, fun W _ => by simp only [shiftAmount, maskAmount, rotateAmount, habs, and_self]⟩

end Sys2Proof.Machine

/-!
What an operation depends on (10_state.md R20): with the sources of `i` the same in two blocks, its body
answers in both or in neither, and leaves the same words in its destinations, or the same `P`.
-/

namespace Sys2Proof.Machine

variable {C : Config.Params}

/-! ### Writing the same word to two blocks -/

/-- The written buffer reads the same in both, whether or not it exists. -/
theorem Block.read_write_self_congr (b b' : Block C) (i : Nat) (v : BitVec C.W) :
    (b.write i v).read i = (b'.write i v).read i := by
  by_cases hi : i < C.NBUF
  · rw [Block.read_write_self b hi, Block.read_write_self b' hi]
  · rw [Block.read_of_ge _ (not_lt.mp hi), Block.read_of_ge _ (not_lt.mp hi)]

/-- A buffer that read the same in both still does. -/
theorem Block.read_write_congr {b b' : Block C} {j : Nat} (h : b.read j = b'.read j) (i : Nat) (v : BitVec C.W) :
    (b.write i v).read j = (b'.write i v).read j := by
  rw [Block.read_write, Block.read_write, h]

/-! ### The body of an instruction on blocks that agree on its sources -/

theorem bodyOf_congr_of_sources {i : Instr} {b b' c : Block C} (h : bodyOf i b = some c)
    (hsrc : ∀ j ∈ sources i, b.read j = b'.read j) :
    ∃ c', bodyOf i b' = some c' ∧ (∀ j ∈ destinations i, c.read j = c'.read j) ∧
      (writesP i = true → c.p = c'.p) := by
  cases i
  case isneg | isnneg | iszero =>
    obtain ⟨a, ha, rfl⟩ := Block.predicate_eq_some.mp h
    rw [hsrc _ (.head _)] at ha
    exact ⟨_, Block.predicate_eq_some.mpr ⟨a, ha, rfl⟩, List.forall_mem_nil _, fun _ => rfl⟩
  case ash | lsh | csh | mask | not | neg =>
    obtain ⟨a, ha, rfl⟩ := Block.unary_eq_some.mp h
    rw [hsrc _ (.head _)] at ha
    exact ⟨_, Block.unary_eq_some.mpr ⟨a, ha, rfl⟩,
      List.forall_mem_singleton.mpr (b.read_write_self_congr b' _ _), nofun⟩
  case divrem =>
    obtain ⟨u, v, hu, hv, rfl⟩ := Block.twoResults_eq_some.mp h
    rw [hsrc _ (.head _)] at hu
    rw [hsrc _ (.tail _ (.head _))] at hv
    exact ⟨_, Block.twoResults_eq_some.mpr ⟨u, v, hu, hv, rfl⟩,
      List.forall_mem_cons.mpr ⟨Block.read_write_congr (b.read_write_self_congr b' _ _) _ _,
        List.forall_mem_singleton.mpr (Block.read_write_self_congr _ _ _ _)⟩, nofun⟩
  case and | or | xor | add | sub | mul | div | rem =>
    obtain ⟨u, v, hu, hv, rfl⟩ := Block.binary_eq_some.mp h
    rw [hsrc _ (.head _)] at hu
    rw [hsrc _ (.tail _ (.head _))] at hv
    exact ⟨_, Block.binary_eq_some.mpr ⟨u, v, hu, hv, rfl⟩,
      List.forall_mem_singleton.mpr (b.read_write_self_congr b' _ _), nofun⟩

/-! ### Answers of `exec` -/

/-- A block whose fault latch holds a value has no step, so one that answers had none (R245). -/
theorem exec_next_unfaulted {i : Instr} {s t : State} (h : exec i s = .next t) : s.block.fault = none := by
  rcases exec_cases i s with ⟨-, e⟩ | ⟨hf, -⟩ | ⟨hf, -⟩ | ⟨hf, -⟩
  · rw [e] at h
    nomatch h
  all_goals exact hf

/-- An instruction that answers with the fault latch empty has completed: its operands are well-formed and
its body answered the block of the next state. -/
theorem exec_next_completed {i : Instr} {s t : State} (h : exec i s = .next t) (ht : t.block.fault = none) :
    i.operandCause Config.reference = none ∧ bodyOf i s.block = some t.block := by
  rcases exec_cases i s with ⟨-, e⟩ | ⟨-, k, -, e⟩ | ⟨-, -, -, e⟩ | ⟨-, hk, c, hc, e⟩
  all_goals
    rw [e] at h
    cases h
  · nomatch ht
  · nomatch ht
  · exact ⟨hk, hc⟩

/-- Settles O26: the run from `s` completed, so its body answered; the body then answers on the block of `s'`
too, with the same results, and the run from `s'` completes with that answer. -/
theorem resultDependsOnlyOnOperands : Obligations.ResultDependsOnlyOnOperands := by
  intro i s s' t t' h h' hsrc ht
  obtain ⟨hk, hbody⟩ := exec_next_completed h ht
  obtain ⟨c', hbody', hdest, hp⟩ := bodyOf_congr_of_sources hbody hsrc
  have hf' : s'.block.fault = none := exec_next_unfaulted h'
  rw [exec_eq_perform, ForInstance.State.perform_done hf' hk hbody'] at h'
  cases h'
  exact ⟨(bodyOf_fault hbody').trans hf', hdest, hp⟩

end Sys2Proof.Machine

/-!
The request word read as a number: its fields (30_encoding.md R60, R61), the bits its format requires to be zero
(R63, R66), and the cause, if any, that the decoder finds in it (R65 to R68, R70).
-/

namespace Sys2Proof

/-! ### Fields -/

theorem Request.op_toNat (r : Request) : r.op.toNat = r.toNat % 32 := by
  rw [Request.op, BitVec.extractLsb'_toNat, Nat.shiftRight_zero]

theorem Request.rd_toNat (r : Request) : r.rd.toNat = r.toNat / 2 ^ 8 % 256 := by
  rw [Request.rd, BitVec.extractLsb'_toNat, Nat.shiftRight_eq_div_pow]

theorem Request.rs1_toNat (r : Request) : r.rs1.toNat = r.toNat / 2 ^ 16 % 256 := by
  rw [Request.rs1, BitVec.extractLsb'_toNat, Nat.shiftRight_eq_div_pow]

theorem Request.rs2_toNat (r : Request) : r.rs2.toNat = r.toNat / 2 ^ 24 % 256 := by
  rw [Request.rs2, BitVec.extractLsb'_toNat, Nat.shiftRight_eq_div_pow]

theorem Request.rd2_toNat (r : Request) : r.rd2.toNat = r.toNat / 2 ^ 32 % 256 := by
  rw [Request.rd2, BitVec.extractLsb'_toNat, Nat.shiftRight_eq_div_pow]

/-- Settles O4: a field's number is the word's, shifted down to the field's place and cut to a byte. -/
theorem indexFieldsAreUnsignedBytes : Obligations.IndexFieldsAreUnsignedBytes :=
  fun r => ⟨r.rd_toNat, r.rs1_toNat, r.rs2_toNat, r.rd2_toNat⟩

/-! ### The bits a format requires to be zero -/

/-- The fields a format requires to be zero, each as its lowest bit and its length (R63). -/
def Format.zeroFields : Format → List (Nat × Nat)
  | .P => [(5, 3), (8, 8), (24, 8), (32, 32)]
  | .U => [(5, 3), (24, 8), (32, 32)]
  | .B => [(5, 3), (32, 32)]
  | .S => [(5, 3), (24, 8)]
  | .D => [(5, 3), (40, 24)]

/-- A field of the word is zero exactly where each of its bits is. -/
theorem Request.field_eq_zero_iff (r : Request) (lo len : Nat) :
    r.toNat / 2 ^ lo % 2 ^ len = 0 ↔ ∀ i, lo ≤ i → i < lo + len → r.getLsbD i = false := by
  constructor
  · intro h i hlo hhi
    have hbit : (r.toNat / 2 ^ lo % 2 ^ len).testBit (i - lo) = false := by rw [h, Nat.zero_testBit]
    simpa [Nat.testBit_mod_two_pow, Nat.testBit_div_two_pow, show i - lo < len by omega, hlo, BitVec.testBit_toNat]
      using hbit
  · intro h
    refine Nat.zero_of_testBit_eq_false fun j => ?_
    rw [Nat.testBit_mod_two_pow, Nat.testBit_div_two_pow, BitVec.testBit_toNat]
    by_cases hj : j < len
    · simpa [hj] using h (j + lo) (by omega) (by omega)
    · simp [hj]

/-- The bits a format fixes are OP and those of its zero fields. -/
theorem Format.getLsbD_fixedBits (fmt : Format) : ∀ i < 64,
    (fmt.fixedBits.getLsbD i = true ↔ i < 5 ∨ ∃ f ∈ fmt.zeroFields, f.1 ≤ i ∧ i < f.1 + f.2) := by
  cases fmt <;> decide

theorem Format.zeroFields_bounds (fmt : Format) : ∀ f ∈ fmt.zeroFields, 5 ≤ f.1 ∧ f.1 + f.2 ≤ 64 := by
  cases fmt <;> decide

theorem Request.getLsbD_setWidth_op (r : Request) (i : Nat) :
    (r.op.setWidth 64).getLsbD i = (decide (i < 5) && r.getLsbD i) := by
  rw [Request.op, BitVec.getLsbD_setWidth, BitVec.getLsbD_extractLsb', Nat.zero_add]
  by_cases hi : i < 5
  · simp [hi, show i < 64 by omega]
  · simp [hi]

/-- The decoder's test of the fixed bits finds exactly the words whose zero fields are zero. -/
theorem Request.and_fixedBits_eq_op_iff (r : Request) (fmt : Format) :
    r &&& fmt.fixedBits = r.op.setWidth 64 ↔ ∀ f ∈ fmt.zeroFields, r.toNat / 2 ^ f.1 % 2 ^ f.2 = 0 := by
  constructor
  · intro h f hf
    obtain ⟨hlo, hhi⟩ := fmt.zeroFields_bounds f hf
    refine (r.field_eq_zero_iff f.1 f.2).mpr fun i hi hi' => ?_
    have hfix := (fmt.getLsbD_fixedBits i (by omega)).mpr (.inr ⟨f, hf, hi, hi'⟩)
    have hop : ¬ i < 5 := by omega
    simpa [r.getLsbD_setWidth_op, hfix, hop] using congrArg (·.getLsbD i) h
  · intro h
    refine BitVec.eq_of_getLsbD_eq fun i hi => ?_
    rw [BitVec.getLsbD_and, r.getLsbD_setWidth_op]
    have hfix := fmt.getLsbD_fixedBits i hi
    by_cases hm : fmt.fixedBits.getLsbD i = true
    · obtain hop | ⟨f, hf, hlo, hhi⟩ := hfix.mp hm
      · simp [hm, hop]
      · simp [(r.field_eq_zero_iff f.1 f.2).mp (h f hf) i hlo hhi]
    · have hop : ¬ i < 5 := fun hop => hm (hfix.mpr (.inl hop))
      simp [hm, hop]

/-! ### The opcode map -/

/-- The indices a format uses, in the order RD, RS1, RS2, RD2 (R63, R243). -/
def Format.indices (r : Request) : Format → List Index
  | .P => [r.rs1]
  | .U | .S => [r.rd, r.rs1]
  | .B => [r.rd, r.rs1, r.rs2]
  | .D => [r.rd, r.rs1, r.rs2, r.rd2]

/-- An OP is reserved exactly where it is 0 or lies above the last row of the map. -/
theorem opcodeMap_eq_none_iff (op : Nat) (rd rs1 rs2 rd2 : Index) (c : Count) :
    opcodeMap op rd rs1 rs2 rd2 c = none ↔ op = 0 ∨ 0x13 ≤ op := by
  unfold opcodeMap
  split
  case h_19 =>
    simp only [true_iff, imp_false] at *
    omega
  all_goals simp

end Sys2Proof

namespace Sys2Proof.Machine

variable {C : Config.Params} {r : Request}

theorem definedOp_eq_false_iff : definedOp r = false ↔ r.toNat % 32 = 0 ∨ 0x13 ≤ r.toNat % 32 := by
  simp only [definedOp, Bool.and_eq_false_iff, decide_eq_false_iff_not]
  omega

/-- What the tables of R63 and R64 say of a word whose OP selects `i`, of format `fmt`. -/
structure Selects (r : Request) (fmt : Format) (i : Instr) : Prop where
  usesRd_eq : usesRd r = decide (fmt ≠ .P)
  usesRs2_eq : usesRs2 r = decide (fmt = .B ∨ fmt = .D)
  usesCount_eq : usesCount r = decide (fmt = .S)
  usesRd2_eq : usesRd2 r = decide (fmt = .D)
  indices_eq : i.indices = fmt.indices r
  destsClash_eq : i.destsClash = (decide (fmt = .D) && r.rd == r.rd2)

theorem selects_of_opcodeMap {fmt : Format} {i : Instr}
    (h : opcodeMap r.op.toNat r.rd r.rs1 r.rs2 r.rd2 r.count = some (fmt, i)) : Selects r fmt i := by
  rw [r.op_toNat] at h
  unfold opcodeMap at h
  split at h
  case h_19 => nomatch h
  all_goals
    rename_i hop
    cases h
    refine ⟨?_, ?_, ?_, ?_, rfl, rfl⟩
    all_goals
      simp only [usesRd, usesRs2, usesCount, usesRd2, hop]
      rfl

/-! ### The causes found by decoding (R70) -/

theorem byteAt_one (r : Request) : byteAt r 1 = r.rd.toNat := r.rd_toNat.symm
theorem byteAt_two (r : Request) : byteAt r 2 = r.rs1.toNat := r.rs1_toNat.symm
theorem byteAt_three (r : Request) : byteAt r 3 = r.rs2.toNat := r.rs2_toNat.symm
theorem byteAt_four (r : Request) : byteAt r 4 = r.rd2.toNat := r.rd2_toNat.symm

theorem fieldBitSet_eq_false_iff {fmt : Format} {i : Instr} (h : Selects r fmt i) :
    fieldBitSet r = false ↔ r &&& fmt.fixedBits = r.op.setWidth 64 := by
  have hX32 : r.toNat / 2 ^ 32 % 2 ^ 32 = r.toNat / 2 ^ 32 := Nat.mod_eq_of_lt (Nat.div_lt_of_lt_mul r.isLt)
  have hX40 : r.toNat / 2 ^ 40 % 2 ^ 24 = r.toNat / 2 ^ 40 := Nat.mod_eq_of_lt (Nat.div_lt_of_lt_mul r.isLt)
  rw [r.and_fixedBits_eq_op_iff, fieldBitSet, h.usesRd_eq, h.usesRs2_eq, h.usesCount_eq, h.usesRd2_eq]
  cases fmt
  all_goals
    simp only [Format.zeroFields, List.forall_mem_cons, hX32, hX40]
    simp [byteAt, and_assoc]

theorem any_indices_eq_indexOutside {fmt : Format} {i : Instr} (h : Selects r fmt i) :
    i.indices.any (fun f => decide (C.NBUF ≤ f.toNat)) = indexOutside C r := by
  rw [h.indices_eq, indexOutside, h.usesRd_eq, h.usesRs2_eq, h.usesRd2_eq, byteAt_one, byteAt_two,
    byteAt_three, byteAt_four]
  cases fmt <;> simp [Format.indices, Bool.or_assoc]

theorem destsClash_eq_sameDestinations {fmt : Format} {i : Instr} (h : Selects r fmt i) :
    i.destsClash = sameDestinations r := by
  rw [h.destsClash_eq, sameDestinations, h.usesRd2_eq, byteAt_one, byteAt_four, Bool.eq_iff_iff]
  simp [BitVec.toNat_inj]

/-- The first of the four causes that the bits of a word show, in the order of R243. -/
def wordCause (C : Config.Params) (r : Request) : Option Cause :=
  if !definedOp r then some .reservedOp
  else if fieldBitSet r then some .reservedField
  else if indexOutside C r then some .indexRange
  else if sameDestinations r then some .destConflict
  else none

/-- The decoder refuses exactly the words whose bits show a cause, with that cause. -/
theorem decode_eq_error_iff {k : Cause} : decode C r = .error k ↔ wordCause C r = some k := by
  unfold decode wordCause
  cases hmap : opcodeMap r.op.toNat r.rd r.rs1 r.rs2 r.rd2 r.count with
  | none =>
    have hop : definedOp r = false := by
      rwa [definedOp_eq_false_iff, ← r.op_toNat, ← opcodeMap_eq_none_iff]
    simp [hop]
  | some row =>
    obtain ⟨fmt, i⟩ := row
    have hop : definedOp r = true := by
      rw [← Bool.not_eq_false, definedOp_eq_false_iff, ← r.op_toNat, ← opcodeMap_eq_none_iff, hmap]
      nofun
    have hsel := selects_of_opcodeMap hmap
    simp only [hop, Ne, ← fieldBitSet_eq_false_iff hsel, Bool.not_eq_false, Instr.operandCause,
      any_indices_eq_indexOutside hsel, destsClash_eq_sameDestinations hsel, Bool.not_true, Bool.false_eq_true, if_false]
    split_ifs <;> simp

/-! ### Fault entry by a step (R244) -/

/-- A request that does not decode is a step that sets `F` and changes nothing else. -/
theorem step_of_decode_error {s : State} {k : Cause} (hline : s.prog[s.hpc]? = some (.issue r))
    (hf : s.block.fault = none) (hd : decode Config.reference r = .error k) :
    ∃ t, step s = .next t ∧ FaultEntered s t k r := by
  refine ⟨s.raise k r, ?_, rfl, fun _ => rfl, rfl, rfl, rfl, rfl, rfl⟩
  simp [step, ForInstance.State.turn, State.hostIssue, hline, hf, hd]

theorem step_of_wordCause {s : State} {k : Cause} (hline : s.prog[s.hpc]? = some (.issue r))
    (hf : s.block.fault = none) (hk : wordCause Config.reference r = some k) :
    ∃ t, step s = .next t ∧ FaultEntered s t k r :=
  step_of_decode_error hline hf (decode_eq_error_iff.mpr hk)

/-- Settles O8: a reserved OP is the first cause of all. -/
theorem reservedOpIsIllegal : Obligations.ReservedOpIsIllegal := by
  intro s r hline hf hop
  exact step_of_wordCause hline hf (by simp [wordCause, definedOp_eq_false_iff.mpr hop])

/-- Settles O9: where the OP is defined, a bit that must be zero comes before every check of an index. -/
theorem reservedFieldIsIllegal : Obligations.ReservedFieldIsIllegal := by
  intro s r hline hf hop hfield
  exact step_of_wordCause hline hf (by simp [wordCause, hop, hfield])

/-- An index is a byte, so none lies outside a file of 256 buffers. -/
theorem indexOutside_of_NBUF_eq (hN : C.NBUF = 256) : indexOutside C r = false := by
  have hbyte : ∀ n, byteAt r n < 256 := fun n => Nat.mod_lt _ (by decide)
  simp [indexOutside, hN, hbyte]

/-- Settles O10: at the step the cause is `wordCause`'s, and with 256 buffers `wordCause` never gives it. -/
theorem indexRangeIsIllegal : Obligations.IndexRangeIsIllegal := by
  refine ⟨?latched, ?never⟩
  case latched =>
    intro s r hline hf hop hfield hindex
    exact step_of_wordCause hline hf (by simp [wordCause, hop, hfield, hindex])
  case never =>
    intro C r hN hd
    rw [decode_eq_error_iff, wordCause, indexOutside_of_NBUF_eq hN, if_neg Bool.false_ne_true] at hd
    split_ifs at hd <;> nomatch hd

end Sys2Proof.Machine

/-!
What the request word of an instruction spells (30_encoding.md R63, R64, R70, R76): the opcode map reads the
instruction back from it, every bit its format fixes is OP's or zero, and so a well-formed instruction is decoded
from its own word.
-/

namespace Sys2Proof

/-- The format of an instruction (R64). -/
def Instr.format : Instr → Format
  | .isneg .. | .isnneg .. | .iszero .. => .P
  | .not .. | .neg .. => .U
  | .and .. | .or .. | .xor .. | .add .. | .sub .. | .mul .. | .div .. | .rem .. => .B
  | .ash .. | .lsh .. | .csh .. | .mask .. => .S
  | .divrem .. => .D

theorem encode_op (i : Instr) : (encode i).op = i.opcode := by
  cases i <;> exact packRequest_op ..

theorem encode_z (i : Instr) : (encode i).extractLsb' 5 3 = 0#3 := by
  cases i <;> exact packRequest_z ..

/-- The opcode map reads an instruction back from the fields of its request word. -/
theorem opcodeMap_encode (i : Instr) :
    opcodeMap (encode i).op.toNat (encode i).rd (encode i).rs1 (encode i).rs2 (encode i).rd2 (encode i).count =
      some (i.format, i) := by
  rw [encode_op, Request.rd2_eq_count]
  cases i <;> simp [encode, opcodeMap, Instr.opcode, Instr.format]

/-- The fields that a format does not use are zero in a request word that encodes an instruction of it. -/
theorem encode_zeroFields (i : Instr) :
    ∀ f ∈ i.format.zeroFields, (encode i).toNat / 2 ^ f.1 % 2 ^ f.2 = 0 := by
  have hz : (encode i).toNat / 2 ^ 5 % 2 ^ 3 = 0 := by
    rw [← Nat.shiftRight_eq_div_pow, ← BitVec.extractLsb'_toNat, encode_z]
    rfl
  have hrd : (encode i).toNat / 2 ^ 8 % 2 ^ 8 = (encode i).rd.toNat := (Request.rd_toNat _).symm
  have hrs2 : (encode i).toNat / 2 ^ 24 % 2 ^ 8 = (encode i).rs2.toNat := (Request.rs2_toNat _).symm
  have hX : (encode i).toNat / 2 ^ 32 = (encode i).count.toNat := (Request.count_toNat _).symm
  have hX40 : (encode i).toNat / 2 ^ 40 = (encode i).count.toNat / 2 ^ 8 := by
    rw [← hX, Nat.div_div_eq_div_mul, ← pow_add]
  cases i
  all_goals simp only [Instr.format, Format.zeroFields, List.forall_mem_cons, hz, hrd, hrs2, hX, hX40]
  case divrem rd rd2 rs1 rs2 =>
    have hrd2 : rd2.toNat / 2 ^ 8 = 0 := Nat.div_eq_of_lt rd2.isLt
    simp [encode, -Nat.reducePow, hrd2]
  all_goals simp [encode]

theorem encode_and_fixedBits (i : Instr) : encode i &&& i.format.fixedBits = i.opcode.setWidth 64 := by
  rw [← encode_op, Request.and_fixedBits_eq_op_iff]
  exact encode_zeroFields i

/-- A word that the opcode map gives an instruction, with no other fixed bit set, decodes to it where its operands
pass their checks. -/
theorem decode_eq_ok {C : Config.Params} {r : Request} {fmt : Format} {i : Instr}
    (hmap : opcodeMap r.op.toNat r.rd r.rs1 r.rs2 r.rd2 r.count = some (fmt, i))
    (hfixed : r &&& fmt.fixedBits = r.op.setWidth 64) (hk : i.operandCause C = none) : decode C r = .ok i := by
  simp [decode, hmap, hfixed, hk]

end Sys2Proof

namespace Sys2Proof.Machine

/-- Every well-formed instruction is spelled by its request word, with its format's fixed bits and its own OP. -/
theorem spells_of_wellFormed {i : Instr} (h : i.WellFormed) : Spells i i.format.fixedBits i.opcode.toNat := by
  refine ⟨?fixed, decode_eq_ok (opcodeMap_encode i) ?_ ((Instr.operandCause_eq_none_iff _ i).mpr h)⟩
  case fixed => rw [encode_and_fixedBits, BitVec.ofNat_toNat]
  rw [encode_and_fixedBits, encode_op]

end Sys2Proof.Machine

/-!
The Comparator (40_comparator.md): what the three predicates say of the bits of their operand, and that a request
of format P latches its predicate in `P` and changes nothing else of the block (R103).
-/

namespace Sys2Proof.Machine

variable {W : Nat}

/-! ### The core functions -/

theorem coreIsneg_eq_getLsbD (a : BitVec W) : coreIsneg a = a.getLsbD (W - 1) := by
  rw [coreIsneg, bit_eq_getLsbD, beq_true]

theorem coreIsnneg_eq_not_coreIsneg (a : BitVec W) : coreIsnneg a = !coreIsneg a := rfl

/-- The invariant of the loop of R102: after `n` rounds the accumulator says whether bits 0 to `n − 1` are 0. -/
theorem coreIszero_eq_true_iff (a : BitVec W) : coreIszero a = true ↔ ∀ i, i < W → a.getLsbD i = false := by
  refine forUp_induction (P := fun n acc => acc = true ↔ ∀ i, i < n → a.getLsbD i = false) ?before ?round W
  case before => simp
  case round =>
    intro n acc ih
    rw [Bool.and_eq_true, ih, bit_eq_getLsbD, beq_iff_eq, Nat.forall_lt_succ_right]

/-! ### Format P at the machine -/

/-- A well-formed request of format P whose source holds a word latches the word's predicate. -/
theorem perform_predicate_latches {i : Instr} {rs1 : Index} {a : Word} {s : State} (f : Word → Bool)
    (hwf : i.WellFormed) (hf : s.block.fault = none) (ha : s.block.read rs1.toNat = some a) :
    ∃ t, s.perform i (Block.predicate rs1 f) = .next t ∧ LatchedPredicate s t (f a) := by
  have hk : i.operandCause Config.reference = none := (Instr.operandCause_eq_none_iff _ i).mpr hwf
  have hbody : s.block.predicate rs1 f = some (s.block.latchP (f a)) := Block.predicate_eq_some.mpr ⟨a, ha, rfl⟩
  exact ⟨_, ForInstance.State.perform_done hf hk hbody, rfl, fun _ => rfl, rfl, rfl, rfl, rfl, rfl⟩

/-- Settles O30: the predicate latched is `coreIsneg` of the source, its top bit. -/
theorem isnegLatchesTheSignBit : Obligations.IsnegLatchesTheSignBit := by
  intro rs1 a s hwf hf ha
  rw [← coreIsneg_eq_getLsbD]
  exact ⟨spells_of_wellFormed hwf, perform_predicate_latches coreIsneg hwf hf ha⟩

/-- Settles O31: the predicate latched is `coreIsnneg` of the source, the complement of its top bit. -/
theorem isnnegLatchesTheComplementedSignBit : Obligations.IsnnegLatchesTheComplementedSignBit := by
  intro rs1 a s hwf hf ha
  rw [← coreIsneg_eq_getLsbD, ← coreIsnneg_eq_not_coreIsneg]
  exact ⟨spells_of_wellFormed hwf, perform_predicate_latches coreIsnneg hwf hf ha⟩

/-- Settles O32: the predicate latched is `coreIszero` of the source, which its loop makes true exactly where
every bit is 0. -/
theorem iszeroLatchesWhetherAllBitsAreZero : Obligations.IszeroLatchesWhetherAllBitsAreZero := by
  intro rs1 a s hwf hf ha
  obtain ⟨t, ht, hlatched⟩ := perform_predicate_latches coreIszero hwf hf ha
  refine ⟨spells_of_wellFormed hwf, t, coreIszero a, ht, hlatched, ?_⟩
  simp only [coreIszero_eq_true_iff, Nat.le_sub_one_iff_lt (show 0 < Config.W by decide)]

end Sys2Proof.Machine

/-!
The Shift/Mask Unit (41_shift_mask.md): what each core function leaves in each bit, for every word length and
every count, and that a request of format U or S writes its destination and changes nothing else of the block.
-/

namespace Sys2Proof.Machine

variable {W : Nat}

/-! ### The shifts and the mask, bit by bit -/

theorem bit_shiftLeftBits (k : Nat) (a : BitVec W) {i : Nat} (hi : i < W) :
    bit (shiftLeftBits k a) i = if k ≤ i then bit a (i - k) else false := by
  rw [shiftLeftBits, bit_eachBit, decide_eq_true hi, Bool.true_and]

theorem bit_shiftRightBits (k : Nat) (fill : Bool) (a : BitVec W) {i : Nat} (hi : i < W) :
    bit (shiftRightBits k fill a) i = if i + k ≤ W - 1 then bit a (i + k) else fill := by
  rw [shiftRightBits, bit_eachBit, decide_eq_true hi, Bool.true_and]

/-- The sign bit that R111 sets after the right shift is there already: the shift fills with it, or moves
nothing. -/
theorem setbit_shiftRightBits_sign (k : Nat) (a : BitVec W) :
    setbit (shiftRightBits k (bit a (W - 1)) a) (W - 1) (bit a (W - 1)) = shiftRightBits k (bit a (W - 1)) a := by
  refine eq_of_bit_eq fun i hi => ?_
  rw [bit_setbit]
  split_ifs with htop
  · obtain ⟨rfl, -⟩ := htop
    rw [bit_shiftRightBits k _ a hi]
    split_ifs with hk
    · rw [show W - 1 + k = W - 1 by omega]
    · rfl
  · rfl

theorem bit_coreAsh (c : Int) (a : BitVec W) {i : Nat} (hi : i < W) :
    bit (coreAsh c a) i =
      if 0 < c then (if shiftAmount W c ≤ i then bit a (i - shiftAmount W c) else false)
      else if c < 0 then
        (if i + shiftAmount W c ≤ W - 1 then bit a (i + shiftAmount W c) else bit a (W - 1))
      else bit a i := by
  rw [coreAsh, setbit_shiftRightBits_sign, ← bit_shiftLeftBits _ a hi, ← bit_shiftRightBits _ _ a hi]
  split_ifs <;> rfl

theorem bit_coreLsh (c : Int) (a : BitVec W) {i : Nat} (hi : i < W) :
    bit (coreLsh c a) i =
      if 0 < c then (if shiftAmount W c ≤ i then bit a (i - shiftAmount W c) else false)
      else if c < 0 then (if i + shiftAmount W c ≤ W - 1 then bit a (i + shiftAmount W c) else false)
      else bit a i := by
  rw [coreLsh, ← bit_shiftLeftBits _ a hi, ← bit_shiftRightBits _ _ a hi]
  split_ifs <;> rfl

theorem bit_coreMask (c : Int) (a : BitVec W) {i : Nat} (hi : i < W) :
    bit (coreMask c a) i =
      if 0 < c then (if i < maskAmount W c then bit a i else false)
      else if c < 0 then (if W - maskAmount W c ≤ i then bit a i else false)
      else false := by
  simp only [coreMask, apply_ite (bit · i), bit_eachBit, bit_zeroWord, decide_eq_true hi, Bool.true_and]

/-! ### The rotation -/

/-- The position that bit `i` of a word rotated by `c` comes from: `i − c` around the word. -/
def rotateSource (W : Nat) (c : Int) (i : Nat) : Nat := (((i : Int) - c) % W).toNat

theorem rotateSource_cast (hW : 0 < W) (c : Int) (i : Nat) : (rotateSource W c i : Int) = ((i : Int) - c) % W :=
  Int.toNat_of_nonneg (Int.emod_nonneg _ (by omega))

theorem rotateSource_lt (hW : 0 < W) (c : Int) (i : Nat) : rotateSource W c i < W := by
  have h : ((i : Int) - c) % W < W := Int.emod_lt_of_pos _ (by omega)
  rw [← rotateSource_cast hW] at h
  exact_mod_cast h

/-- Two rotations draw on the position that one by the sum of the counts does. -/
theorem rotateSource_rotateSource (hW : 0 < W) (c d : Int) (i : Nat) :
    rotateSource W c (rotateSource W d i) = rotateSource W (c + d) i := by
  rw [← Int.natCast_inj, rotateSource_cast hW, rotateSource_cast hW, rotateSource_cast hW, Int.emod_sub_emod,
    sub_sub, add_comm d c]

theorem rotateSource_of_dvd {c : Int} (hc : (W : Int) ∣ c) {i : Nat} (hi : i < W) : rotateSource W c i = i := by
  obtain ⟨m, rfl⟩ := hc
  rw [← Int.natCast_inj, rotateSource_cast (by omega), Int.sub_mul_emod_self_left]
  exact Int.emod_eq_of_lt (by omega) (by omega)

/-- Opposite rotations draw on each other's positions. -/
theorem rotateSource_cancel {c d : Int} (h : c + d = 0) {i : Nat} (hi : i < W) :
    rotateSource W c (rotateSource W d i) = i := by
  rw [rotateSource_rotateSource (by omega), h, rotateSource_of_dvd (dvd_zero _) hi]

/-- A right rotation draws on the position `k` further up. -/
theorem rotateSource_of_nonpos {c : Int} (hc : c ≤ 0) {i : Nat} (hi : i < W) :
    rotateSource W c i = (i + rotateAmount W c) % W := by
  rw [← Int.natCast_inj, rotateSource_cast (by omega), rotateAmount, Nat.add_mod_mod, Int.natCast_mod, Nat.cast_add,
    Int.ofNat_natAbs_of_nonpos hc, sub_eq_add_neg]

/-- In a left rotation bit `i` goes `k` further up, to the position the opposite rotation draws on. -/
theorem rotateSource_neg_of_nonneg {c : Int} (hc : 0 ≤ c) {i : Nat} (hi : i < W) :
    rotateSource W (-c) i = (i + rotateAmount W c) % W := by
  rw [rotateSource_of_nonpos (neg_nonpos.mpr hc) hi, rotateAmount, rotateAmount, Int.natAbs_neg]

theorem rotateAmount_eq_zero_iff (c : Int) : rotateAmount W c = 0 ↔ (W : Int) ∣ c := by
  rw [rotateAmount, ← Nat.dvd_iff_mod_eq_zero, Int.natCast_dvd]

theorem coreCsh_of_dvd {c : Int} (hc : (W : Int) ∣ c) (a : BitVec W) : coreCsh c a = a := by
  rw [coreCsh, if_pos ((rotateAmount_eq_zero_iff c).mpr hc)]

/-- A loop that sets the bit at `g i` in round `i`, no two rounds at the same place, leaves there what round `i`
set. -/
theorem bit_forUp_setbit_of_injOn {f : Nat → Bool} {g : Nat → Nat} {n : Nat} (hg : Set.InjOn g (Set.Iio n))
    (y : BitVec W) {i : Nat} (hi : i < n) (hgi : g i < W) :
    bit (forUp (fun i y => setbit y (g i) (f i)) n y) (g i) = f i := by
  induction n with
  | zero => omega
  | succ n ih =>
    rw [forUp_succ, bit_setbit]
    by_cases hin : i = n
    · subst hin
      rw [if_pos ⟨rfl, hgi⟩]
    · have hne : g i ≠ g n := fun h => hin (hg hi (Nat.lt_succ_self n) h)
      rw [if_neg fun h => hne h.1]
      exact ih (hg.mono (Set.Iio_subset_Iio (Nat.le_succ n))) (by omega)

theorem add_mod_injOn (W k : Nat) : Set.InjOn (fun i => (i + k) % W) (Set.Iio W) :=
  fun _ hi _ hj h => (Nat.ModEq.add_right_cancel' k h).eq_of_lt_of_lt hi hj

/-- Rotation in both directions and at count 0: bit `i` is the operand's bit `i − c`, around the word. -/
theorem bit_coreCsh (c : Int) (a : BitVec W) {i : Nat} (hi : i < W) :
    bit (coreCsh c a) i = bit a (rotateSource W c i) := by
  have hW : 0 < W := by omega
  by_cases hk : rotateAmount W c = 0
  · have hc : (W : Int) ∣ c := (rotateAmount_eq_zero_iff c).mp hk
    rw [coreCsh_of_dvd hc, rotateSource_of_dvd hc hi]
  rw [coreCsh, if_neg hk]
  split_ifs with hc
  case pos =>
    have hsource : rotateSource W c i < W := rotateSource_lt hW c i
    have hplace : (rotateSource W c i + rotateAmount W c) % W = i := by
      rw [← rotateSource_neg_of_nonneg hc.le hsource, rotateSource_cancel (neg_add_cancel c) hi]
    have hset := bit_forUp_setbit_of_injOn (f := bit a) (add_mod_injOn W (rotateAmount W c)) 0#W hsource
      (Nat.mod_lt _ hW)
    rwa [hplace] at hset
  case neg => rw [bit_eachBit, decide_eq_true hi, Bool.true_and, rotateSource_of_nonpos (not_lt.mp hc) hi]

/-- Rotations compose by adding their counts. -/
theorem coreCsh_coreCsh (c d : Int) (a : BitVec W) : coreCsh c (coreCsh d a) = coreCsh (c + d) a := by
  refine eq_of_bit_eq fun i hi => ?_
  have hW : 0 < W := by omega
  rw [bit_coreCsh _ _ hi, bit_coreCsh _ _ (rotateSource_lt hW c i), bit_coreCsh _ _ hi,
    rotateSource_rotateSource hW, add_comm d c]

theorem coreCsh_iterate (c : Int) (n : Nat) (a : BitVec W) : (coreCsh c)^[n] a = coreCsh (n * c) a := by
  induction n with
  | zero => rw [Function.iterate_zero_apply, Nat.cast_zero, zero_mul, coreCsh_of_dvd (dvd_zero _)]
  | succ n ih => rw [Function.iterate_succ_apply', ih, coreCsh_coreCsh, Nat.cast_succ, add_one_mul, add_comm c]

/-- Settles O52: both ways of shifting rotate by a count that the word length divides, 0 and `W * c`. -/
theorem circularShiftIsABijection : Obligations.CircularShiftIsABijection := by
  intro W w c _
  constructor
  · rw [coreCsh_coreCsh, neg_add_cancel, coreCsh_of_dvd (dvd_zero _)]
  · rw [coreCsh_iterate, coreCsh_of_dvd (dvd_mul_right _ _)]

/-! ### Formats U and S at the machine -/

/-- Every buffer index of a well-formed instruction names a buffer (R67). -/
theorem index_lt_of_wellFormed {i : Instr} (h : i.WellFormed) {f : Index} (hf : f ∈ i.indices) :
    f.toNat < Config.reference.NBUF := by
  by_contra hge
  have hk : i.operandCause Config.reference = none := (Instr.operandCause_eq_none_iff _ i).mpr h
  have hany : i.indices.any (fun f => decide (Config.reference.NBUF ≤ f.toNat)) = true :=
    List.any_eq_true.mpr ⟨f, hf, decide_eq_true (not_lt.mp hge)⟩
  rw [Instr.operandCause, if_pos hany] at hk
  nomatch hk

/-- A completed request whose body writes one buffer of the file has only that effect. -/
theorem wroteBuffer_of_write (s : State) {rd : Index} (hrd : rd.toNat < Config.reference.NBUF) (v : Word) :
    WroteBuffer s { s with block := s.block.write rd.toNat v, hpc := s.hpc + 1 } rd v :=
  ⟨s.block.read_write_self hrd v, fun _ hj => s.block.read_write_ne hj.symm v, rfl, rfl, rfl, rfl, rfl, rfl⟩

/-- A well-formed request of format U or S whose source holds a word writes the unit's result for it. -/
theorem perform_unary_writes {i : Instr} {rd rs1 : Index} {a : Word} {s : State} (f : Word → Word)
    (hwf : i.WellFormed) (hrd : rd ∈ i.indices) (hf : s.block.fault = none) (ha : s.block.read rs1.toNat = some a) :
    ∃ t, s.perform i (Block.unary rd rs1 f) = .next t ∧ WroteBuffer s t rd (f a) := by
  have hk : i.operandCause Config.reference = none := (Instr.operandCause_eq_none_iff _ i).mpr hwf
  have hbody : s.block.unary rd rs1 f = some (s.block.write rd.toNat (f a)) := Block.unary_eq_some.mpr ⟨a, ha, rfl⟩
  exact ⟨_, ForInstance.State.perform_done hf hk hbody,
    wroteBuffer_of_write s (index_lt_of_wellFormed hwf hrd) (f a)⟩

/-- Settles O33: the word written is `coreAsh` of the source. -/
theorem ashShiftsArithmetically : Obligations.AshShiftsArithmetically := by
  intro rd rs1 count a s hwf hf ha
  obtain ⟨t, ht, hwrote⟩ := perform_unary_writes (coreAsh (countOf count)) hwf (.head _) hf ha
  exact ⟨spells_of_wellFormed hwf, t, _, ht, hwrote, fun _ hi => bit_coreAsh (countOf count) a hi⟩

/-- Settles O34: the word written is `coreLsh` of the source. -/
theorem lshShiftsLogically : Obligations.LshShiftsLogically := by
  intro rd rs1 count a s hwf hf ha
  obtain ⟨t, ht, hwrote⟩ := perform_unary_writes (coreLsh (countOf count)) hwf (.head _) hf ha
  exact ⟨spells_of_wellFormed hwf, t, _, ht, hwrote, fun _ hi => bit_coreLsh (countOf count) a hi⟩

/-- Settles O35: the word written is `coreCsh` of the source; in a left rotation the bit named is the one that
draws on bit `i`. -/
theorem cshRotates : Obligations.CshRotates := by
  intro rd rs1 count a s hwf hf ha
  obtain ⟨t, ht, hwrote⟩ := perform_unary_writes (coreCsh (countOf count)) hwf (.head _) hf ha
  refine ⟨spells_of_wellFormed hwf, t, _, ht, hwrote, ?multiple, fun i hi => ?bits⟩
  case multiple => exact fun hk => coreCsh_of_dvd ((rotateAmount_eq_zero_iff (countOf count)).mp hk) a
  case bits =>
    split_ifs with hc
    · have hplace := rotateSource_neg_of_nonneg hc hi
      exact (bit_coreCsh _ a (Nat.mod_lt _ (by decide))).trans
        (congrArg (bit a) (hplace ▸ rotateSource_cancel (add_neg_cancel _) hi))
    · exact (bit_coreCsh _ a hi).trans (congrArg (bit a) (rotateSource_of_nonpos (le_of_not_ge hc) hi))

/-- Settles O36: the word written is `coreMask` of the source. -/
theorem maskKeepsTheNamedBits : Obligations.MaskKeepsTheNamedBits := by
  intro rd rs1 count a s hwf hf ha
  obtain ⟨t, ht, hwrote⟩ := perform_unary_writes (coreMask (countOf count)) hwf (.head _) hf ha
  exact ⟨spells_of_wellFormed hwf, t, _, ht, hwrote, fun _ hi => bit_coreMask (countOf count) a hi⟩

end Sys2Proof.Machine

/-!
The Logic Unit (42_logic.md): `and`, `or`, `xor` and `not` are the bitwise operations on words, and a request of
format B writes its destination and changes nothing else of the block.
-/

namespace Sys2Proof.Machine

variable {W : Nat}

/-! ### The core functions -/

/-- A loop over every index that writes each bit as `v` has it makes `v`. -/
theorem eachBit_eq_of_getLsbD {f : Nat → Bool} {v : BitVec W} (h : ∀ i < W, v.getLsbD i = f i) : eachBit f = v := by
  refine eq_of_bit_eq fun i hi => ?_
  rw [bit_eachBit, decide_eq_true hi, Bool.true_and, bit_eq_getLsbD, h i hi]

theorem coreAnd_eq_and (a b : BitVec W) : coreAnd a b = a &&& b :=
  eachBit_eq_of_getLsbD fun _ _ => BitVec.getLsbD_and

theorem coreOr_eq_or (a b : BitVec W) : coreOr a b = a ||| b :=
  eachBit_eq_of_getLsbD fun _ _ => BitVec.getLsbD_or

theorem coreXor_eq_xor (a b : BitVec W) : coreXor a b = a ^^^ b :=
  eachBit_eq_of_getLsbD fun _ _ => BitVec.getLsbD_xor

/-- Unlike the other three, the library's complement has its bits only below `W`, where the loop runs. -/
theorem coreNot_eq_not (a : BitVec W) : coreNot a = ~~~a :=
  eachBit_eq_of_getLsbD fun i hi => by rw [BitVec.getLsbD_not, decide_eq_true hi, Bool.true_and, bit_eq_getLsbD]

/-- `or` of a word with itself is the word, so `mov` copies (R75). -/
theorem coreOr_self (a : BitVec W) : coreOr a a = a := by
  rw [coreOr_eq_or, BitVec.or_self]

/-- `xor` of a word with itself is zero, so `clr` clears (R75). -/
theorem coreXor_self (a : BitVec W) : coreXor a a = zeroWord W := by
  rw [coreXor_eq_xor, BitVec.xor_self, zeroWord]

/-! ### Format B at the machine -/

/-- A well-formed request of format B whose sources hold words writes the unit's result for them. -/
theorem perform_binary_writes {i : Instr} {rd rs1 rs2 : Index} {a b : Word} {s : State} (f : Word → Word → Word)
    (hwf : i.WellFormed) (hrd : rd ∈ i.indices) (hf : s.block.fault = none) (ha : s.block.read rs1.toNat = some a)
    (hb : s.block.read rs2.toNat = some b) :
    ∃ t, s.perform i (Block.binary rd rs1 rs2 f) = .next t ∧ WroteBuffer s t rd (f a b) := by
  have hk : i.operandCause Config.reference = none := (Instr.operandCause_eq_none_iff _ i).mpr hwf
  have hbody : s.block.binary rd rs1 rs2 f = some (s.block.write rd.toNat (f a b)) :=
    Block.binary_eq_some.mpr ⟨a, b, ha, hb, rfl⟩
  exact ⟨_, ForInstance.State.perform_done hf hk hbody,
    wroteBuffer_of_write s (index_lt_of_wellFormed hwf hrd) (f a b)⟩

/-- Settles O37: the three operations have one format, so that what is well-formed for `and` is so for `or` and
`xor`, and each writes its core function of the sources. -/
theorem andOrXorCombineBitwise : Obligations.AndOrXorCombineBitwise := by
  intro rd rs1 rs2 a b s hwf hf ha hb
  rw [← coreAnd_eq_and, ← coreOr_eq_or, ← coreXor_eq_xor]
  have hor : Instr.WellFormed (.or rd rs1 rs2) := hwf
  have hxor : Instr.WellFormed (.xor rd rs1 rs2) := hwf
  exact ⟨⟨spells_of_wellFormed hwf, perform_binary_writes coreAnd hwf (.head _) hf ha hb⟩,
    ⟨spells_of_wellFormed hor, perform_binary_writes coreOr hor (.head _) hf ha hb⟩,
    ⟨spells_of_wellFormed hxor, perform_binary_writes coreXor hxor (.head _) hf ha hb⟩⟩

/-- Settles O38: the word written is `coreNot` of the source. -/
theorem notComplementsBitwise : Obligations.NotComplementsBitwise := by
  intro rd rs1 a s hwf hf ha
  rw [← coreNot_eq_not]
  exact ⟨spells_of_wellFormed hwf, perform_unary_writes coreNot hwf (.head _) hf ha⟩

end Sys2Proof.Machine

/-!
The pseudo-instructions (30_encoding.md R75): the count that a shift or rotate form names, and the conditions on it;
`mov` and `clr` as requests of the Logic Unit.
-/

namespace Sys2Proof.Machine

/-! ### Counts -/

/-- The field made for a count in range reads as that count (R62). -/
theorem exists_countField {c : Int} (hlo : -(2 ^ 31) ≤ c) (hhi : c < 2 ^ 31) :
    ∃ x, countField c = some x ∧ countOf x = c :=
  ⟨_, if_pos ⟨hlo, hhi⟩, BitVec.toInt_ofInt_eq_self (by decide) hlo hhi⟩

theorem exists_leftCount {k : Int} (h : 0 ≤ k ∧ k ≤ 2 ^ 31 - 1) : ∃ c, leftCount k = some c ∧ countOf c = k := by
  rw [leftCount, if_pos h.1]
  exact exists_countField (by omega) (by omega)

theorem leftCount_eq_none {k : Int} (h : ¬(0 ≤ k ∧ k ≤ 2 ^ 31 - 1)) : leftCount k = none := by
  rw [leftCount, ite_eq_right_iff]
  exact fun hk => if_neg (by omega)

/-- The bound is one more than that of a left shift: `−2^31` is a count, `2^31` is none. -/
theorem exists_rightCount {k : Int} (h : 0 ≤ k ∧ k ≤ 2 ^ 31) : ∃ c, rightCount k = some c ∧ countOf c = -k := by
  rw [rightCount, if_pos h.1]
  exact exists_countField (by omega) (by omega)

theorem rightCount_eq_none {k : Int} (h : ¬(0 ≤ k ∧ k ≤ 2 ^ 31)) : rightCount k = none := by
  rw [rightCount, ite_eq_right_iff]
  exact fun hk => if_neg (by omega)

/-! ### The requests -/

/-- With both buffers in the file, `or` of the source with itself is well-formed (R67). -/
theorem wellFormed_or_self {xd xs : Index} (hd : xd.toNat < Config.NBUF) (hs : xs.toNat < Config.NBUF) :
    Instr.WellFormed (.or xd xs xs) := by
  simp [Instr.WellFormed, Instr.wf, Index.inFile, hd, hs]

/-- Settles O7: `mov` and `clr` are `or` and `xor` of the source with itself, and the other five take the count
that `leftCount` or `rightCount` gives. -/
theorem pseudoInstructionsExpand : Obligations.PseudoInstructionsExpand := by
  refine ⟨?requests, fun xd xs k => ⟨?left, ?noLeft, ?right, ?noRight⟩⟩
  case requests =>
    intro xd xs a s hd hs hf ha
    have hmov : (pseudoMov xd xs).WellFormed := wellFormed_or_self hd hs
    have hclr : (pseudoClr xd xs).WellFormed := hmov
    refine ⟨rfl, rfl, ?copies, ?clears⟩
    case copies =>
      have h := perform_binary_writes coreOr hmov (.head _) hf ha ha
      rwa [coreOr_self] at h
    case clears =>
      have h := perform_binary_writes coreXor hclr (.head _) hf ha ha
      rwa [coreXor_self] at h
  case left =>
    intro h
    obtain ⟨c, hc, hval⟩ := exists_leftCount h
    exact ⟨c, hval, congrArg (Option.map _) hc, congrArg (Option.map _) hc⟩
  case noLeft =>
    intro h
    have hc := leftCount_eq_none h
    exact ⟨congrArg (Option.map _) hc, congrArg (Option.map _) hc⟩
  case right =>
    intro h
    obtain ⟨c, hc, hval⟩ := exists_rightCount h
    exact ⟨c, hval, congrArg (Option.map _) hc, congrArg (Option.map _) hc, congrArg (Option.map _) hc⟩
  case noRight =>
    intro h
    have hc := rightCount_eq_none h
    exact ⟨congrArg (Option.map _) hc, congrArg (Option.map _) hc, congrArg (Option.map _) hc⟩

end Sys2Proof.Machine

/-!
The Adder/Subtractor (43_add_sub.md): its chain makes the carries of binary addition, so that `add` is word addition
and `sub`, which adds the complement and one, is word subtraction.
-/

namespace Sys2Proof.Machine

variable {W : Nat}

/-! ### One bit position (R160) -/

/-- The low bit of the sum of three bits is their parity. -/
theorem toNat_add_mod_two : ∀ x y c : Bool, (x.toNat + y.toNat + c.toNat) % 2 = (x ^^ (y ^^ c)).toNat := by
  decide

/-- The high bit of the sum of three bits is their majority. -/
theorem toNat_add_div_two : ∀ x y c : Bool, (x.toNat + y.toNat + c.toNat) / 2 = (Bool.atLeastTwo x y c).toNat := by
  decide

/-- The bit of `a + b + cin` at position `i`. -/
def sumBit (a b : BitVec W) (cin : Bool) (i : Nat) : Bool := bit a i ^^ (bit b i ^^ BitVec.carry i a b cin)

/-- A position that is passed the carry of the addition writes the addition's bit and passes its next carry on. -/
theorem rippleStep_carry (a b v : BitVec W) (cin : Bool) (i : Nat) :
    rippleStep a b i (v, BitVec.carry i a b cin) =
      (setbit v i (sumBit a b cin i), BitVec.carry (i + 1) a b cin) := by
  have htest : ∀ p : Bool, (p.toNat == 1) = p := by decide
  rw [rippleStep, toNat_add_mod_two, toNat_add_div_two, htest, htest, BitVec.carry_succ]
  rfl

/-! ### The chain -/

/-- After `n` positions the chain has written the low `n` bits of the sum and holds the carry into position `n`. -/
theorem forUp_rippleStep (a b v : BitVec W) (cin : Bool) (n : Nat) :
    forUp (rippleStep a b) n (v, cin) =
      (forUp (fun i y => setbit y i (sumBit a b cin i)) n v, BitVec.carry n a b cin) := by
  induction n with
  | zero => rw [forUp_zero, forUp_zero, BitVec.carry_zero]
  | succ n ih => rw [forUp_succ, ih, rippleStep_carry, forUp_succ]

theorem addRc_eq_eachBit_sumBit (a b : BitVec W) (cin : Bool) : addRc a b cin = eachBit (sumBit a b cin) :=
  congrArg Prod.fst (forUp_rippleStep a b 0#W cin W)

theorem bit_addRc (a b : BitVec W) (cin : Bool) {i : Nat} (hi : i < W) :
    bit (addRc a b cin) i = sumBit a b cin i := by
  rw [addRc_eq_eachBit_sumBit, bit_eachBit, decide_eq_true hi, Bool.true_and]

/-- Settles O46: the carries are those of the addition `a + b + cin`. -/
theorem rippleCarryChainStepsBitByBit : Obligations.RippleCarryChainStepsBitByBit := by
  intro W a b cin
  refine ⟨fun i => (BitVec.carry i a b cin).toNat, congrArg Bool.toNat BitVec.carry_zero, fun i hi => ⟨?low, ?high⟩⟩
  case low =>
    rw [toNat_add_mod_two]
    exact congrArg Bool.toNat (bit_addRc a b cin hi)
  case high =>
    rw [toNat_add_div_two]
    exact congrArg Bool.toNat (BitVec.carry_succ i a b cin)

/-! ### The core functions on words -/

theorem addRc_eq_add (a b : BitVec W) (cin : Bool) : addRc a b cin = a + b + BitVec.ofNat W cin.toNat := by
  rw [addRc_eq_eachBit_sumBit, ← BitVec.toNat_ofBool, BitVec.ofNat_toNat]
  exact eachBit_eq_of_getLsbD fun i hi => BitVec.getLsbD_add_add_bool hi a b cin

theorem coreAdd_eq_add (a b : BitVec W) : coreAdd a b = a + b := by
  rw [coreAdd, addRc_eq_add, Bool.toNat_false, BitVec.add_zero]

/-- Complement plus one is the negation, so adding both subtracts (R162). -/
theorem coreSub_eq_sub (a b : BitVec W) : coreSub a b = a - b := by
  rw [coreSub, addRc_eq_add, Bool.toNat_true, BitVec.add_assoc, ← BitVec.neg_eq_not_add, BitVec.sub_eq_add_neg]

theorem coreNeg_eq_neg (a : BitVec W) : coreNeg a = -a := by
  rw [coreNeg, coreSub_eq_sub, zeroWord, BitVec.zero_sub]

theorem minWord_eq_intMin (W : Nat) : minWord W = BitVec.intMin W :=
  eq_of_bit_eq fun i _ => by rw [bit_minWord, bit_eq_getLsbD, BitVec.getLsbD_intMin]

/-- Settles O48: the laws of word arithmetic, which hold of `MINW` as of every word. -/
theorem negationAndSubtractionAgree : Obligations.NegationAndSubtractionAgree := by
  intro W _
  refine ⟨fun w => ?cancel, fun a b => ?sub, ?minw⟩
  case cancel => rw [coreAdd_eq_add, coreNeg_eq_neg, BitVec.add_right_neg, zeroWord]
  case sub => rw [coreSub_eq_sub, coreAdd_eq_add, coreNeg_eq_neg, BitVec.sub_eq_add_neg]
  case minw => rw [coreNeg_eq_neg, minWord_eq_intMin, BitVec.neg_intMin]

end Sys2Proof.Machine

/-!
Which cause a request latches (60_exceptions.md R243, R244): a word that decodes is the request word of what it
decodes to, and an instruction whose source holds no value has no answer of its body; so a request shows either the
decoder's cause or, on the word issued, an unwritten read.
-/

namespace Sys2Proof

/-! ### A decoded word is its instruction's request word (R69) -/

/-- A request word with Z zero is packed from its fields OP, RD, RS1, RS2 and X (R60). -/
theorem packRequest_fields {r : Request} (hz : r.toNat / 2 ^ 5 % 2 ^ 3 = 0) :
    packRequest r.op r.rd r.rs1 r.rs2 r.count = r := by
  generalize hr' : packRequest r.op r.rd r.rs1 r.rs2 r.count = r'
  have hop : r'.toNat % 32 = r.toNat % 32 := by
    rw [← Request.op_toNat, ← hr', packRequest_op, Request.op_toNat]
  have hz' : r'.toNat / 2 ^ 5 % 2 ^ 3 = 0 := by
    rw [← Nat.shiftRight_eq_div_pow, ← BitVec.extractLsb'_toNat, ← hr', packRequest_z]
    rfl
  have hrd : r'.toNat / 2 ^ 8 % 256 = r.toNat / 2 ^ 8 % 256 := by
    rw [← Request.rd_toNat, ← hr', packRequest_rd, Request.rd_toNat]
  have hrs1 : r'.toNat / 2 ^ 16 % 256 = r.toNat / 2 ^ 16 % 256 := by
    rw [← Request.rs1_toNat, ← hr', packRequest_rs1, Request.rs1_toNat]
  have hrs2 : r'.toNat / 2 ^ 24 % 256 = r.toNat / 2 ^ 24 % 256 := by
    rw [← Request.rs2_toNat, ← hr', packRequest_rs2, Request.rs2_toNat]
  have hcount : r'.toNat / 2 ^ 32 = r.toNat / 2 ^ 32 := by
    rw [← Request.count_toNat, ← hr', packRequest_count, Request.count_toNat]
  exact BitVec.eq_of_toNat_eq (by omega)

/-- The word whose used fields are those of `r`, and whose other fields are zero (R63). -/
def Format.word (r : Request) : Format → Request
  | .P => packRequest r.op 0 r.rs1 0 0
  | .U => packRequest r.op r.rd r.rs1 0 0
  | .B => packRequest r.op r.rd r.rs1 r.rs2 0
  | .S => packRequest r.op r.rd r.rs1 0 r.count
  | .D => packRequest r.op r.rd r.rs1 r.rs2 (r.rd2.setWidth 32)

/-- An instruction's request word carries the fields of the word whose OP selected it. -/
theorem encode_eq_word_of_opcodeMap {r : Request} {fmt : Format} {i : Instr}
    (h : opcodeMap r.op.toNat r.rd r.rs1 r.rs2 r.rd2 r.count = some (fmt, i)) : encode i = fmt.word r := by
  unfold opcodeMap at h
  split at h
  case h_19 => nomatch h
  all_goals
    rename_i hop
    cases h
    exact congrArg (packRequest · _ _ _ _) (BitVec.eq_of_toNat_eq hop.symm)

/-- A word whose fields outside its format are zero is the word of its used fields. -/
theorem Format.word_eq_self {r : Request} {fmt : Format}
    (h : ∀ f ∈ fmt.zeroFields, r.toNat / 2 ^ f.1 % 2 ^ f.2 = 0) : fmt.word r = r := by
  have hlt := r.isLt
  have hrd : r.toNat / 2 ^ 8 % 2 ^ 8 = 0 → r.rd = 0 := fun h0 => BitVec.eq_of_toNat_eq (r.rd_toNat.trans h0)
  have hrs2 : r.toNat / 2 ^ 24 % 2 ^ 8 = 0 → r.rs2 = 0 := fun h0 => BitVec.eq_of_toNat_eq (r.rs2_toNat.trans h0)
  have hcount : r.toNat / 2 ^ 32 % 2 ^ 32 = 0 → r.count = 0 := fun h0 => by
    refine BitVec.eq_of_toNat_eq (r.count_toNat.trans (?_ : _ = 0))
    omega
  have hrd2 : r.toNat / 2 ^ 40 % 2 ^ 24 = 0 → r.rd2.setWidth 32 = r.count := fun h0 => by
    refine BitVec.eq_of_toNat_eq ?_
    rw [BitVec.toNat_setWidth, r.rd2_toNat, r.count_toNat]
    omega
  cases fmt
  all_goals
    simp only [Format.zeroFields, List.forall_mem_cons] at h
    simp only [Format.word]
  case P =>
    obtain ⟨hz, hRD, hRS2, hX, -⟩ := h
    simpa only [hrd hRD, hrs2 hRS2, hcount hX] using packRequest_fields hz
  case U =>
    obtain ⟨hz, hRS2, hX, -⟩ := h
    simpa only [hrs2 hRS2, hcount hX] using packRequest_fields hz
  case B =>
    obtain ⟨hz, hX, -⟩ := h
    simpa only [hcount hX] using packRequest_fields hz
  case S =>
    obtain ⟨hz, hRS2, -⟩ := h
    simpa only [hrs2 hRS2] using packRequest_fields hz
  case D =>
    obtain ⟨hz, hX40, -⟩ := h
    rw [hrd2 hX40, packRequest_fields hz]

/-- A word decodes only by a row of the opcode map, with no fixed bit of its format set but OP's and with operands
that pass their checks. -/
theorem opcodeMap_of_decode_eq_ok {C : Config.Params} {r : Request} {i : Instr} (h : decode C r = .ok i) :
    ∃ fmt, opcodeMap r.op.toNat r.rd r.rs1 r.rs2 r.rd2 r.count = some (fmt, i) ∧
      r &&& fmt.fixedBits = r.op.setWidth 64 ∧ i.operandCause C = none := by
  unfold decode at h
  split at h
  · nomatch h
  next fmt i' hmap =>
    split_ifs at h with hfixed
    split at h
    · nomatch h
    next hk =>
      cases h
      exact ⟨fmt, hmap, not_not.mp hfixed, hk⟩

/-- A word that decodes is the request word of what it decodes to. -/
theorem encode_eq_of_decode_eq_ok {C : Config.Params} {r : Request} {i : Instr} (h : decode C r = .ok i) :
    encode i = r := by
  obtain ⟨fmt, hmap, hfixed, -⟩ := opcodeMap_of_decode_eq_ok h
  rw [encode_eq_word_of_opcodeMap hmap, Format.word_eq_self ((r.and_fixedBits_eq_op_iff fmt).mp hfixed)]

end Sys2Proof

namespace Sys2Proof.Machine

variable {C : Config.Params} {r : Request}

/-! ### Unwritten sources (R71) -/

/-- Format P has no answer exactly where its source holds no value. -/
theorem Block.predicate_eq_none {rs1 : Index} {f : BitVec C.W → Bool} {b : Block C} :
    b.predicate rs1 f = none ↔ b.read rs1.toNat = none := by
  unfold Block.predicate
  cases b.read rs1.toNat <;> simp

/-- Formats U and S have no answer exactly where the source holds no value. -/
theorem Block.unary_eq_none {rd rs1 : Index} {f : BitVec C.W → BitVec C.W} {b : Block C} :
    b.unary rd rs1 f = none ↔ b.read rs1.toNat = none := by
  unfold Block.unary
  cases b.read rs1.toNat <;> simp

/-- Format B has no answer exactly where one of the sources holds no value. -/
theorem Block.binary_eq_none {rd rs1 rs2 : Index} {f : BitVec C.W → BitVec C.W → BitVec C.W} {b : Block C} :
    b.binary rd rs1 rs2 f = none ↔ b.read rs1.toNat = none ∨ b.read rs2.toNat = none := by
  unfold Block.binary
  cases b.read rs1.toNat <;> cases b.read rs2.toNat <;> simp

/-- Format D has no answer exactly where one of the sources holds no value. -/
theorem Block.twoResults_eq_none {rd rd2 rs1 rs2 : Index} {f : BitVec C.W → BitVec C.W → BitVec C.W × BitVec C.W}
    {b : Block C} :
    b.twoResults rd rd2 rs1 rs2 f = none ↔ b.read rs1.toNat = none ∨ b.read rs2.toNat = none := by
  unfold Block.twoResults
  cases b.read rs1.toNat <;> cases b.read rs2.toNat <;> simp

/-- A body has no answer exactly where a source of the instruction holds no value. -/
theorem bodyOf_eq_none_iff (i : Instr) (b : Block C) :
    bodyOf i b = none ↔ ∃ j ∈ sources i, b.read j = none := by
  cases i
  case isneg | isnneg | iszero => simp [bodyOf, sources, Block.predicate_eq_none]
  case ash | lsh | csh | mask | not | neg => simp [bodyOf, sources, Block.unary_eq_none]
  case divrem => simp [bodyOf, sources, Block.twoResults_eq_none]
  case and | or | xor | add | sub | mul | div | rem => simp [bodyOf, sources, Block.binary_eq_none]

/-- The buffers an instruction reads are named by the bytes RS1 and, in formats B and D, RS2 of its word. -/
theorem sources_of_opcodeMap {fmt : Format} {i : Instr}
    (h : opcodeMap r.op.toNat r.rd r.rs1 r.rs2 r.rd2 r.count = some (fmt, i)) :
    sources i = byteAt r 2 :: if usesRs2 r then [byteAt r 3] else [] := by
  rw [byteAt_two, byteAt_three, usesRs2, ← r.op_toNat]
  unfold opcodeMap at h
  split at h
  case h_19 => nomatch h
  all_goals
    rename_i hop
    cases h
    rw [hop]
    rfl

theorem sourceUnwritten_eq_true_iff {fmt : Format} {i : Instr} {b : Block C}
    (h : opcodeMap r.op.toNat r.rd r.rs1 r.rs2 r.rd2 r.count = some (fmt, i)) :
    sourceUnwritten b r = true ↔ ∃ j ∈ sources i, b.read j = none := by
  rw [sources_of_opcodeMap h, sourceUnwritten]
  cases usesRs2 r <;> simp

/-! ### The first cause (R243) -/

/-- An unwritten read is reported only of a word whose bits show no cause. -/
theorem firstCause_eq_or (b : Block C) (r : Request) :
    firstCause b r = (wordCause C r).or (if sourceUnwritten b r then some .unwrittenRead else none) := by
  unfold firstCause wordCause
  split_ifs <;> rfl

/-! ### Fault entry by an unwritten read (R244) -/

/-- Where the operands pass their checks, it is the body's missing answer that `exec` reports. -/
theorem exec_of_bodyOf_none {i : Instr} {s : State} (hf : s.block.fault = none)
    (hk : i.operandCause Config.reference = none) (hbody : bodyOf i s.block = none) :
    exec i s = .next (s.raise .unwrittenRead (encode i)) := by
  rcases exec_cases i s with ⟨hf', -⟩ | ⟨-, k, hk', -⟩ | ⟨-, -, -, e⟩ | ⟨-, -, c, hc, -⟩
  · simp [hf] at hf'
  · nomatch hk.symm.trans hk'
  · exact e
  · nomatch hbody.symm.trans hc

/-- A request that decodes but reads an unwritten buffer is a step that sets `F`, with the word issued, and changes
nothing else. -/
theorem step_of_sourceUnwritten {s : State} {i : Instr} (hline : s.prog[s.hpc]? = some (.issue r))
    (hf : s.block.fault = none) (hd : decode Config.reference r = .ok i) (hsrc : sourceUnwritten s.block r = true) :
    ∃ t, step s = .next t ∧ FaultEntered s t .unwrittenRead r := by
  obtain ⟨fmt, hmap, -, hk⟩ := opcodeMap_of_decode_eq_ok hd
  have hbody : bodyOf i s.block = none :=
    (bodyOf_eq_none_iff i s.block).mpr ((sourceUnwritten_eq_true_iff hmap).mp hsrc)
  have hstep : step s = exec i s := by simp [step, ForInstance.State.turn, State.hostIssue, hline, hf, hd]
  rw [hstep, exec_of_bodyOf_none hf hk hbody, encode_eq_of_decode_eq_ok hd]
  exact ⟨_, rfl, rfl, fun _ => rfl, rfl, rfl, rfl, rfl, rfl⟩

/-- Settles O13: the causes before the last are the decoder's; the last is reached only by a word that decodes. -/
theorem firstCauseThatAppliesIsLatched : Obligations.FirstCauseThatAppliesIsLatched := by
  intro s r hline hf k hk
  rw [firstCause_eq_or, Option.or_eq_some_iff] at hk
  obtain hword | ⟨hnone, hread⟩ := hk
  · exact step_of_wordCause hline hf hword
  · obtain ⟨hsrc, ⟨⟩⟩ := Option.ite_none_right_eq_some.mp hread
    cases hd : decode Config.reference r with
    | error k => nomatch hnone.symm.trans (decode_eq_error_iff.mp hd)
    | ok i => exact step_of_sourceUnwritten hline hf hd hsrc

end Sys2Proof.Machine

/-!
Decoding undoes encoding (30_encoding.md R69, R70, R76): the request word of any instruction decodes to it, or to
the cause its operands show; a word that decodes is the request word of a well-formed instruction; and a listing of
bytes decodes as its word does (20_memory.md R42).
-/

namespace Sys2Proof

variable {C : Config.Params}

/-! ### The request word of an instruction -/

/-- An instruction whose operands pass their checks is read back from its request word. -/
theorem decode_encode {i : Instr} (hk : i.operandCause C = none) : decode C (encode i) = .ok i :=
  decode_eq_ok (opcodeMap_encode i) (by rw [encode_and_fixedBits, encode_op]) hk

/-- A request word shows no other fault than the one its operands have. -/
theorem decode_encode_of_operandCause {i : Instr} {k : Cause} (hk : i.operandCause C = some k) :
    decode C (encode i) = .error k := by
  rw [decode, opcodeMap_encode]
  simp [encode_and_fixedBits, encode_op, hk]

/-! ### Listings -/

/-- The bytes of a word, the most significant first, make the word. -/
theorem Request.append_bytes (r : Request) :
    r.extractLsb' 56 8 ++ r.extractLsb' 48 8 ++ r.extractLsb' 40 8 ++ r.extractLsb' 32 8 ++ r.extractLsb' 24 8 ++
      r.extractLsb' 16 8 ++ r.extractLsb' 8 8 ++ r.extractLsb' 0 8 = r := by
  have join : ∀ {hi lo len : Nat}, hi = lo + 8 →
      r.extractLsb' hi len ++ r.extractLsb' lo 8 = r.extractLsb' lo (len + 8) :=
    BitVec.extractLsb'_append_extractLsb'_eq_extractLsb'
  rw [join rfl, join rfl, join rfl, join rfl, join rfl, join rfl, join rfl]
  exact BitVec.extractLsb'_eq_self

end Sys2Proof

namespace Sys2Proof.Machine

/-- Settles O1: a well-formed instruction is one whose operands pass their checks. -/
theorem decodeOfEncodeIsIdentity : Obligations.DecodeOfEncodeIsIdentity :=
  fun C i hwf => decode_encode ((Instr.operandCause_eq_none_iff C i).mpr hwf)

/-- Settles O2: the decoder's word is packed from the fields it read, and its last check is that of well-formed
operands. -/
theorem decodedWordIsItsEncoding : Obligations.DecodedWordIsItsEncoding := by
  intro C r i hd
  obtain ⟨-, -, -, hk⟩ := opcodeMap_of_decode_eq_ok hd
  exact ⟨encode_eq_of_decode_eq_ok hd, (Instr.operandCause_eq_none_iff C i).mp hk⟩

/-- Settles O3: the decoder is run on each of the eight words. -/
theorem workedEncodingsDecode : Obligations.WorkedEncodingsDecode :=
  ⟨rfl, rfl, rfl, rfl, rfl, rfl, rfl, rfl⟩

/-- Settles O6: the first eight bytes of the listing, put together again, are the word. -/
theorem byteListingDecodesAsTheWord : Obligations.ByteListingDecodesAsTheWord := by
  intro C r rest
  rw [Request.toBytes]
  simp only [List.cons_append, List.nil_append, decodeBytes]
  rw [r.append_bytes]

end Sys2Proof.Machine

/-!
What a request does to the machine: the frame of a body and what it leaves written (20_memory.md R44), the first
cause as the decoder and the body see it (60_exceptions.md R243), the answers of `exec` they give, and that these are
the answers of the request layer to the request word (30_encoding.md R71).
-/

namespace Sys2Proof.Machine

variable {C : Config.Params}

/-! ### The body of an instruction -/

/-- The writes a body can make: the predicate latch, one destination, or two of them (R44). -/
theorem bodyOf_cases {i : Instr} {b c : Block C} (h : bodyOf i b = some c) :
    (∃ v, writesP i = true ∧ destinations i = [] ∧ c = b.latchP v) ∨
    (∃ rd v, writesP i = false ∧ destinations i = [rd] ∧ c = b.write rd v) ∨
    (∃ rd rd2 q m, writesP i = false ∧ destinations i = [rd, rd2] ∧ c = (b.write rd q).write rd2 m) := by
  cases i
  case isneg | isnneg | iszero =>
    obtain ⟨a, -, rfl⟩ := Block.predicate_eq_some.mp h
    exact .inl ⟨_, rfl, rfl, rfl⟩
  case ash | lsh | csh | mask | not | neg =>
    obtain ⟨a, -, rfl⟩ := Block.unary_eq_some.mp h
    exact .inr (.inl ⟨_, _, rfl, rfl, rfl⟩)
  case divrem =>
    obtain ⟨u, v, -, -, rfl⟩ := Block.twoResults_eq_some.mp h
    exact .inr (.inr ⟨_, _, _, _, rfl, rfl, rfl⟩)
  case and | or | xor | add | sub | mul | div | rem =>
    obtain ⟨u, v, -, -, rfl⟩ := Block.binary_eq_some.mp h
    exact .inr (.inl ⟨_, _, rfl, rfl, rfl⟩)

theorem bodyOf_read_of_notMem {i : Instr} {b c : Block C} (h : bodyOf i b = some c) {j : Nat}
    (hj : j ∉ destinations i) : c.read j = b.read j := by
  obtain ⟨v, -, -, rfl⟩ | ⟨rd, v, -, hd, rfl⟩ | ⟨rd, rd2, q, m, -, hd, rfl⟩ := bodyOf_cases h
  · rfl
  · rw [hd, List.mem_singleton] at hj
    exact b.read_write_ne (Ne.symm hj) v
  · rw [hd, List.mem_pair, not_or] at hj
    obtain ⟨hrd, hrd2⟩ := hj
    rw [Block.read_write_ne _ (Ne.symm hrd2), Block.read_write_ne _ (Ne.symm hrd)]

theorem bodyOf_p_of_writesP_eq_false {i : Instr} {b c : Block C} (h : bodyOf i b = some c) (hp : writesP i = false) :
    c.p = b.p := by
  obtain ⟨v, hp', -⟩ | ⟨rd, v, -, -, rfl⟩ | ⟨rd, rd2, q, m, -, -, rfl⟩ := bodyOf_cases h
  · nomatch hp.symm.trans hp'
  · rfl
  · rfl

/-- A buffer that holds a word holds one after a write. -/
theorem Block.isSome_read_write {b : Block C} {j : Nat} (h : (b.read j).isSome = true) (i : Nat) (v : BitVec C.W) :
    ((b.write i v).read j).isSome = true := by
  rw [Block.read_write]
  split_ifs
  · rfl
  · exact h

/-- A body unwrites no buffer. -/
theorem bodyOf_isSome_read {i : Instr} {b c : Block C} (h : bodyOf i b = some c) {j : Nat}
    (hj : (b.read j).isSome = true) : (c.read j).isSome = true := by
  obtain ⟨v, -, -, rfl⟩ | ⟨rd, v, -, -, rfl⟩ | ⟨rd, rd2, q, m, -, -, rfl⟩ := bodyOf_cases h
  · exact hj
  · exact Block.isSome_read_write hj rd v
  · exact Block.isSome_read_write (Block.isSome_read_write hj rd q) rd2 m

/-- A body does not unwrite `P`, and the body of a predicate writes it. -/
theorem bodyOf_isSome_p {i : Instr} {b c : Block C} (h : bodyOf i b = some c)
    (hp : b.p.isSome = true ∨ writesP i = true) : c.p.isSome = true := by
  obtain ⟨v, -, -, rfl⟩ | ⟨rd, v, hp', -, rfl⟩ | ⟨rd, rd2, q, m, hp', -, rfl⟩ := bodyOf_cases h
  · rfl
  all_goals exact hp.resolve_right fun hp => nomatch hp'.symm.trans hp

/-- A destination is an index field of its instruction. -/
theorem exists_index_of_mem_destinations {i : Instr} {j : Nat} (hj : j ∈ destinations i) :
    ∃ f ∈ i.indices, f.toNat = j := by
  cases i
  case isneg | isnneg | iszero => nomatch hj
  case divrem rd rd2 rs1 rs2 =>
    obtain rfl | rfl := List.mem_pair.mp hj
    · exact ⟨rd, .head _, rfl⟩
    · exact ⟨rd2, List.mem_of_getLast? rfl, rfl⟩
  all_goals
    obtain rfl := List.mem_singleton.mp hj
    exact ⟨_, .head _, rfl⟩

/-- The body of a well-formed instruction leaves a word in each destination. -/
theorem bodyOf_isSome_read_of_mem {i : Instr} {b c : Block Config.reference} (hwf : i.WellFormed)
    (h : bodyOf i b = some c) {j : Nat} (hj : j ∈ destinations i) : (c.read j).isSome = true := by
  obtain ⟨f, hf, rfl⟩ := exists_index_of_mem_destinations hj
  have hwrite : ∀ (b : Block Config.reference) (v : Word), ((b.write f.toNat v).read f.toNat).isSome = true :=
    fun b v => by rw [b.read_write_self (index_lt_of_wellFormed hwf hf), Option.isSome_some]
  obtain ⟨v, -, hd, rfl⟩ | ⟨rd, v, -, hd, rfl⟩ | ⟨rd, rd2, q, m, -, hd, rfl⟩ := bodyOf_cases h
  all_goals rw [hd] at hj
  · nomatch hj
  · obtain rfl := List.mem_singleton.mp hj
    exact hwrite b v
  · obtain rfl | rfl := List.mem_pair.mp hj
    · exact Block.isSome_read_write (hwrite b q) rd2 m
    · exact hwrite _ m

/-! ### Which cause a request shows -/

/-- The cause the decoder gives comes before an unwritten read. -/
theorem firstCause_of_decode_error {b : Block C} {r : Request} {k : Cause} (hd : decode C r = .error k) :
    firstCause b r = some k := by
  rw [firstCause_eq_or, decode_eq_error_iff.mp hd, Option.some_or]

/-- Of a word that decodes, the one cause left is that its body finds a source unwritten. -/
theorem firstCause_of_decode_ok {b : Block C} {r : Request} {i : Instr} (hd : decode C r = .ok i) :
    firstCause b r = if (bodyOf i b).isNone then some .unwrittenRead else none := by
  have hword : wordCause C r = none :=
    Option.eq_none_iff_forall_ne_some.mpr fun k hk => nomatch hd.symm.trans (decode_eq_error_iff.mpr hk)
  obtain ⟨fmt, hmap, -⟩ := opcodeMap_of_decode_eq_ok hd
  have hread : sourceUnwritten b r = (bodyOf i b).isNone := by
    rw [Bool.eq_iff_iff, sourceUnwritten_eq_true_iff hmap, Option.isNone_iff_eq_none, bodyOf_eq_none_iff]
  rw [firstCause_eq_or, hword, Option.none_or, hread]

/-- No cause applies to a request only where it decodes and its body answers. -/
theorem exists_bodyOf_of_firstCause_eq_none {b : Block C} {r : Request} (h : firstCause b r = none) :
    ∃ i c, decode C r = .ok i ∧ bodyOf i b = some c := by
  cases hd : decode C r with
  | error k => nomatch h.symm.trans (firstCause_of_decode_error hd)
  | ok i =>
    cases hbody : bodyOf i b with
    | none => simp [firstCause_of_decode_ok hd, hbody] at h
    | some c => exact ⟨i, c, rfl, hbody⟩

/-! ### The answers of `exec`, and the step at a request -/

/-- Where the operands fail their checks, it is their cause that `exec` reports. -/
theorem exec_of_operandCause {i : Instr} {s : State} {k : Cause} (hf : s.block.fault = none)
    (hk : i.operandCause Config.reference = some k) : exec i s = .next (s.raise k (encode i)) := by
  rcases exec_cases i s with ⟨hf', -⟩ | ⟨-, k', hk', e⟩ | ⟨-, hk', -⟩ | ⟨-, hk', -⟩
  · simp [hf] at hf'
  · cases hk.symm.trans hk'
    exact e
  all_goals nomatch hk.symm.trans hk'

/-- An instruction whose operands pass their checks completes with the answer of its body. -/
theorem exec_of_bodyOf_some {i : Instr} {s : State} {c : Block Config.reference} (hf : s.block.fault = none)
    (hk : i.operandCause Config.reference = none) (hbody : bodyOf i s.block = some c) :
    exec i s = .next { s with block := c, hpc := s.hpc + 1 } := by
  rw [exec_eq_perform, ForInstance.State.perform_done hf hk hbody]

/-- While `F` holds a value no instruction runs (R245). -/
theorem exec_of_faulted {s : State} (hf : s.block.fault.isSome = true) (i : Instr) :
    exec i s = .refused .faultLatched := by
  rcases exec_cases i s with ⟨-, e⟩ | ⟨hf', -⟩ | ⟨hf', -⟩ | ⟨hf', -⟩
  · exact e
  all_goals simp [hf'] at hf

/-- Raising a cause is fault entry (R244). -/
theorem faultEntered_raise (s : State) (k : Cause) (r : Request) : FaultEntered s (s.raise k r) k r :=
  ⟨rfl, fun _ => rfl, rfl, rfl, rfl, rfl, rfl⟩

/-- A line that issues a word which decodes is `exec` of what it decodes to, while `F` holds no value. -/
theorem step_of_decode_ok {s : State} {r : Request} {i : Instr} (hline : s.prog[s.hpc]? = some (.issue r))
    (hf : s.block.fault = none) (hd : decode Config.reference r = .ok i) : step s = exec i s := by
  simp [step, ForInstance.State.turn, State.hostIssue, hline, hf, hd]

/-- At a request that has no step the host turns to its plan (R245). -/
theorem step_of_blocked {s : State} (h : s.blocked) : step s = s.moveAfterFault := by
  obtain ⟨hf, r, hline⟩ := h
  simp [step, ForInstance.State.turn, hline, hf]

/-! ### The rules of one instruction -/

/-- With the other indices in range, equal destinations are the cause (R68). -/
theorem operandCause_divrem_self {rd rs1 rs2 : Index} (hrd : rd.toNat < C.NBUF) (hrs1 : rs1.toNat < C.NBUF)
    (hrs2 : rs2.toNat < C.NBUF) : Instr.operandCause C (.divrem rd rd rs1 rs2) = some .destConflict := by
  simp [Instr.operandCause, Instr.indices, Instr.destsClash, hrd, hrs1, hrs2]

/-- Settles O11: the operand check of R68 comes before the sources are read, and the request word shows its cause to
the decoder too. -/
theorem destConflictIsIllegal : Obligations.DestConflictIsIllegal := by
  intro rd rs1 rs2 s hf hrd hrs1 hrs2
  have hk := operandCause_divrem_self (C := Config.reference) hrd hrs1 hrs2
  exact ⟨⟨_, exec_of_operandCause hf hk, faultEntered_raise ..⟩,
    fun hline => step_of_decode_error hline hf (decode_encode_of_operandCause hk)⟩

/-- Settles O12: the operands pass their checks, so the unwritten source is what the body finds. -/
theorem unwrittenSourceIsIllegal : Obligations.UnwrittenSourceIsIllegal := by
  intro i s hwf hf hsrc
  have hk : i.operandCause Config.reference = none := (Instr.operandCause_eq_none_iff _ i).mpr hwf
  have hbody : bodyOf i s.block = none := (bodyOf_eq_none_iff i s.block).mpr hsrc
  exact ⟨_, exec_of_bodyOf_none hf hk hbody, faultEntered_raise ..⟩

/-- Settles O24: an answer of `exec` is a fault entry, or that of the body, whose writes are its destinations or
`P`. -/
theorem everyInstructionKeepsItsFrame : Obligations.EveryInstructionKeepsItsFrame := by
  intro i s t h
  rcases exec_cases i s with ⟨-, e⟩ | ⟨-, k, -, e⟩ | ⟨-, -, -, e⟩ | ⟨hf, -, c, hbody, e⟩
  all_goals
    rw [e] at h
    cases h
  · exact .inr ⟨k, faultEntered_raise ..⟩
  · exact .inr ⟨.unwrittenRead, faultEntered_raise ..⟩
  · exact .inl ⟨(bodyOf_fault hbody).trans hf, rfl, rfl, rfl, rfl, fun _ => bodyOf_read_of_notMem hbody,
      bodyOf_p_of_writesP_eq_false hbody⟩

/-- Settles O25: where every source holds a word the body answers, and a request that shows no cause decodes to an
instruction whose body answers. -/
theorem everyInstructionCompletes : Obligations.EveryInstructionCompletes := by
  refine ⟨fun i s hwf hf hsrc => ?exec, fun s r hline hf hcause => ?step⟩
  case exec =>
    have hk : i.operandCause Config.reference = none := (Instr.operandCause_eq_none_iff _ i).mpr hwf
    have hne : bodyOf i s.block ≠ none := fun h => by
      obtain ⟨j, hj, hnone⟩ := (bodyOf_eq_none_iff i s.block).mp h
      obtain ⟨v, hv⟩ := hsrc j hj
      nomatch hnone.symm.trans hv
    obtain ⟨c, hbody⟩ := Option.ne_none_iff_exists'.mp hne
    exact ⟨_, exec_of_bodyOf_some hf hk hbody, (bodyOf_fault hbody).trans hf, rfl,
      fun j hj => Option.isSome_iff_exists.mp (bodyOf_isSome_read_of_mem hwf hbody hj),
      fun hp => Option.isSome_iff_exists.mp (bodyOf_isSome_p hbody (.inr hp))⟩
  case step =>
    obtain ⟨i, c, hd, hbody⟩ := exists_bodyOf_of_firstCause_eq_none hcause
    obtain ⟨-, -, -, hk⟩ := opcodeMap_of_decode_eq_ok hd
    rw [step_of_decode_ok hline hf hd]
    exact ⟨_, exec_of_bodyOf_some hf hk hbody, (bodyOf_fault hbody).trans hf, rfl⟩

/-- Settles O22: with `F` empty the decoded word is run; with `F` set and no move planned, the step and `exec` are
the same refusal. -/
theorem stepRunsTheDecodedInstruction : Obligations.StepRunsTheDecodedInstruction := by
  intro s r i hline hd hcan
  cases hf : s.block.fault with
  | none => exact step_of_decode_ok hline hf hd
  | some f =>
    have hplan : s.afterFault = [] := hcan.resolve_left fun h => nomatch hf.symm.trans h
    have hfault : s.block.fault.isSome = true := by rw [hf, Option.isSome_some]
    rw [exec_of_faulted hfault, step_of_blocked ⟨hfault, r, hline⟩, ForInstance.State.moveAfterFault, hplan]

/-! ### The request layer (R71) -/

/-- The body of an instruction is R71's reading of the sources, core function and delivery, by the fields of a word
whose OP selects it. -/
theorem bodyOf_eq_deliver {fmt : Format} {i : Instr} {r : Request}
    (h : opcodeMap r.op.toNat r.rd r.rs1 r.rs2 r.rd2 r.count = some (fmt, i)) (b : Block C) :
    haveI := C.atLeastTwo
    bodyOf i b = (b.read r.rs1.toNat).bind fun u =>
      (if Instr.hasSecondSource i then b.read r.rs2.toNat else some (zeroWord C.W)).map fun v =>
        b.deliver r (coreResult i u v) := by
  unfold opcodeMap at h
  split at h
  case h_19 => nomatch h
  all_goals
    cases h
    simp only [bodyOf, Block.predicate, Block.unary, Block.binary, Block.twoResults, Instr.hasSecondSource, if_true]
    cases b.read r.rs1.toNat <;> cases b.read r.rs2.toNat <;> rfl

theorem Block.performWord_of_decode_error {b : Block C} {r : Request} {k : Cause} (hd : decode C r = .error k) :
    b.performWord r = if b.fault.isSome then .refused else .raised (b.raise k r) := by
  rw [Block.performWord, hd]

/-- A word that decodes is performed as the instruction it decodes to. -/
theorem Block.performWord_of_decode_ok {b : Block C} {r : Request} {i : Instr} (hd : decode C r = .ok i) :
    b.performWord r = b.attempt i (bodyOf i) := by
  obtain ⟨fmt, hmap, -, hk⟩ := opcodeMap_of_decode_eq_ok hd
  rw [Block.attempt, hk, encode_eq_of_decode_eq_ok hd, bodyOf_eq_deliver hmap, Block.performWord, hd]
  dsimp only
  cases b.read r.rs1.toNat with
  | none => rfl
  | some u =>
    dsimp only [Option.bind_some]
    cases (if Instr.hasSecondSource i then b.read r.rs2.toNat else some (zeroWord C.W)) <;> rfl

/-- An instruction is performed as its request word, whether or not its operands pass their checks. -/
theorem Block.performWord_encode (i : Instr) (b : Block C) : b.performWord (encode i) = b.attempt i (bodyOf i) := by
  cases hk : i.operandCause C with
  | none => exact Block.performWord_of_decode_ok (decode_encode hk)
  | some k => rw [Block.performWord_of_decode_error (decode_encode_of_operandCause hk), Block.attempt, hk]

theorem exec_eq_settle_performWord (i : Instr) (s : State) : exec i s = s.settle (s.block.performWord (encode i)) := by
  rw [exec_eq_perform, ForInstance.State.perform, Block.performWord_encode]

theorem State.hostIssue_eq_settle_performWord (r : Request) (s : State) :
    State.hostIssue r s = s.settle (s.block.performWord r) := by
  unfold State.hostIssue
  cases hd : decode Config.reference r with
  | error k =>
    rw [Block.performWord_of_decode_error hd]
    split_ifs <;> rfl
  | ok i =>
    have hexec := exec_eq_settle_performWord i s
    rw [encode_eq_of_decode_eq_ok hd] at hexec
    split_ifs with hf
    · rw [← hexec, exec_of_faulted hf]
    · exact hexec

/-- Settles O23: an instruction and its request word are performed alike, and a word that decodes is that of an
instruction. -/
theorem execIsTheRequestLayer : Obligations.ExecIsTheRequestLayer := by
  refine ⟨exec_eq_settle_performWord, State.hostIssue_eq_settle_performWord, fun s => ?step⟩
  case step =>
    have hissue : State.hostIssue = ForInstance.State.hostIssue :=
      funext fun r => funext fun s => State.hostIssue_eq_settle_performWord r s
    rw [step, hissue, ForInstance.State.step]

end Sys2Proof.Machine

/-!
What one step does to the block, said once: it keeps it, resets it, writes one buffer for the host, enters the fault
of the request issued, or completes that request. The rules of the whole machine follow case by case (10_state.md
R23, R25; 60_exceptions.md R244, R245; 70_reset_and_hazards.md R270).
-/

namespace Sys2Proof.Machine

/-! ### Steps -/

/-- What a step from `s` to `t` does to the block. -/
inductive BlockStep (s t : State) : Prop where
  /-- The host's own lines, its reads, and a host that makes no move. -/
  | kept (hblock : t.block = s.block)
  /-- The move `Reset`. -/
  | reset (hmakes : s.makes .reset) (hblock : t.block = Block.reset Config.reference)
  /-- The move `HostWrite(j, v)`. -/
  | hostWrite {j : Nat} {v : Word} (hmakes : s.makes (.write j v)) (hblock : t.block = s.block.write j v)
  /-- Fault entry by the request issued. -/
  | faultEntry {r : Request} {k : Cause} (hline : s.prog[s.hpc]? = some (.issue r)) (hf : s.block.fault = none)
      (hcause : firstCause s.block r = some k) (hnext : t = s.raise k r)
  /-- Completion of the request issued. -/
  | completed {r : Request} {i : Instr} (hline : s.prog[s.hpc]? = some (.issue r)) (hf : s.block.fault = none)
      (hd : decode Config.reference r = .ok i) (hbody : bodyOf i s.block = some t.block)

/-- A move the step makes, on a state `u` that differs from `s` in the host's places only. -/
theorem blockStep_of_makeMove {s t u : State} {m : HostMove Config.W} (hmakes : s.makes m)
    (h : u.makeMove m = .next t) (hu : u.block = s.block) : BlockStep s t := by
  rcases ForInstance.State.makeMove_next_cases h with ⟨j, v, rfl, -, rfl⟩ | ⟨j, rfl, -, rfl⟩ | ⟨rfl, rfl⟩ | ⟨rfl, rfl⟩ |
    ⟨rfl, rfl⟩
  case inl => exact .hostWrite hmakes (congrArg (Block.write · j v) hu)
  case inr.inr.inr.inr => exact .reset hmakes rfl
  all_goals exact .kept hu

theorem blockStep_of_hostIssue {s t : State} {r : Request} (hline : s.prog[s.hpc]? = some (.issue r))
    (h : State.hostIssue r s = .next t) : BlockStep s t := by
  obtain ⟨-, e⟩ | ⟨hf, k, hd, e⟩ | ⟨hf, i, hd, e⟩ := State.hostIssue_cases r s
  · nomatch e.symm.trans h
  · cases e.symm.trans h
    exact .faultEntry hline hf (firstCause_of_decode_error hd) rfl
  · rw [e] at h
    obtain ⟨-, -, -, hk⟩ := opcodeMap_of_decode_eq_ok hd
    cases hbody : bodyOf i s.block with
    | none =>
      cases (exec_of_bodyOf_none hf hk hbody).symm.trans h
      refine .faultEntry hline hf ?_ (by rw [encode_eq_of_decode_eq_ok hd])
      rw [firstCause_of_decode_ok hd, hbody]
      rfl
    | some c =>
      cases (exec_of_bodyOf_some hf hk hbody).symm.trans h
      exact .completed hline hf hd hbody

theorem blockStep_of_step {s t : State} (h : step s = .next t) : BlockStep s t := by
  rcases step_next_cases h with ⟨-, rfl⟩ | ⟨m, hline, hm⟩ | ⟨r, m, rest, hline, hf, hplan, hm⟩ | ⟨r, hline, -, hr⟩ |
    ⟨line, -, rfl⟩ | ⟨yes, no, -, rfl⟩ | ⟨-, rfl⟩
  · exact .kept rfl
  · exact blockStep_of_makeMove (.inl hline) hm rfl
  · exact blockStep_of_makeMove (.inr ⟨⟨hf, r, hline⟩, by rw [hplan, List.head?_cons]⟩) hm rfl
  · exact blockStep_of_hostIssue hline hr
  · exact .kept rfl
  · exact .kept (ForInstance.State.hostBranchP_block yes no s)
  · exact .kept rfl

/-- The move the step makes is made at a state with the same block, once its place in the program or the plan is
taken. -/
theorem exists_makeMove_of_makes {s : State} {m : HostMove Config.W} (h : s.makes m) :
    ∃ u : State, step s = u.makeMove m ∧ u.block = s.block ∧ u.reads = s.reads ∧ HostGoesOn s u := by
  obtain ⟨hb, e⟩ | ⟨hb, e⟩ := step_of_makes h
  · exact ⟨_, e, rfl, rfl, rfl, .inl ⟨hb, rfl, rfl⟩⟩
  · exact ⟨_, e, rfl, rfl, rfl, .inr ⟨hb, rfl, rfl⟩⟩

/-! ### The fault latch -/

/-- A step leaves the latch as it is, clears it as `Reset`, or enters the fault of the request issued. -/
theorem fault_cases_of_step {s t : State} (h : step s = .next t) :
    t.block.fault = s.block.fault ∨ (s.makes .reset ∧ t.block.fault = none) ∨
      (s.block.fault = none ∧ ∃ r k, s.prog[s.hpc]? = some (.issue r) ∧ firstCause s.block r = some k ∧
        t = s.raise k r) := by
  cases blockStep_of_step h with
  | kept hblock => exact .inl (congrArg _ hblock)
  | reset hmakes hblock => exact .inr (.inl ⟨hmakes, congrArg _ hblock⟩)
  | hostWrite _ hblock => exact .inl (by rw [hblock, Block.write_fault])
  | faultEntry hline hf hcause hnext => exact .inr (.inr ⟨hf, _, _, hline, hcause, hnext⟩)
  | completed _ _ _ hbody => exact .inl (bodyOf_fault hbody)

/-- The first cause of a request is one that the request layer can put in the latch with its word. -/
theorem latchSound_raise {C : Config.Params} {b : Block C} {r : Request} {k : Cause}
    (hcause : firstCause b r = some k) : (b.raise k r).latchSound := by
  rintro _ _ ⟨⟩
  cases hd : decode C r with
  | error k' =>
    cases (firstCause_of_decode_error hd).symm.trans hcause
    exact .inl rfl
  | ok i =>
    rw [firstCause_of_decode_ok hd, Option.ite_none_right_eq_some] at hcause
    obtain ⟨-, ⟨⟩⟩ := hcause
    exact .inr ⟨rfl, i, rfl⟩

theorem latchSound_of_fault_eq_none {C : Config.Params} {b : Block C} (hf : b.fault = none) : b.latchSound :=
  fun _ _ h => nomatch hf.symm.trans h

/-- Settles O16: only fault entry puts a value in the latch, the first cause of the word it records. -/
theorem everyStepKeepsTheLatchSound : Obligations.EveryStepKeepsTheLatchSound := by
  intro s t hs h
  obtain hkept | ⟨-, hnone⟩ | ⟨-, r, k, -, hcause, rfl⟩ := fault_cases_of_step h
  · exact fun k r hr => hs k r (hkept.symm.trans hr)
  · exact latchSound_of_fault_eq_none hnone
  · exact latchSound_raise hcause

/-- Settles O17: after reset the latch holds nothing. -/
theorem resetLatchIsSound : Obligations.ResetLatchIsSound := latchSound_of_fault_eq_none rfl

/-- Settles O14: fault entry is the only step after which the latch holds a value it did not hold. -/
theorem faultEntryIsPrecise : Obligations.FaultEntryIsPrecise := by
  intro s t k r h hs ht
  obtain hkept | ⟨-, hnone⟩ | ⟨-, r', k', hline, hcause, rfl⟩ := fault_cases_of_step h
  · nomatch ht.symm.trans (hkept.trans hs)
  · nomatch ht.symm.trans hnone
  · obtain ⟨rfl, rfl⟩ : k' = k ∧ r' = r := by simpa using ht
    exact ⟨hline, hcause, faultEntered_raise ..⟩

/-! ### The host's moves -/

theorem step_of_makes_reset {s : State} (h : s.makes .reset) :
    ∃ t, step s = .next t ∧ t.block = Block.reset Config.reference ∧ t.hpc = 0 := by
  obtain ⟨u, e, -⟩ := exists_makeMove_of_makes h
  exact ⟨_, e, rfl, rfl⟩

/-- A read by the host of a buffer of the file (R55). -/
theorem step_of_makes_read {s : State} {i : Nat} (h : s.makes (.read i)) (hi : i < Config.NBUF) :
    ∃ t, step s = .next t ∧ t.block = s.block ∧ HostGoesOn s t ∧
      t.reads = s.reads ++ [.buffer i (s.block.read i)] := by
  obtain ⟨u, e, hblock, hreads, hgo⟩ := exists_makeMove_of_makes h
  rw [ForInstance.State.makeMove, ForInstance.State.hostRead, if_pos hi] at e
  exact ⟨_, e, hblock, hgo, by rw [ForInstance.State.see_reads, hblock, hreads]⟩

theorem step_of_makes_readP {s : State} (h : s.makes .readP) :
    ∃ t, step s = .next t ∧ t.block = s.block ∧ HostGoesOn s t ∧ t.reads = s.reads ++ [.predicate s.block.p] := by
  obtain ⟨u, e, hblock, hreads, hgo⟩ := exists_makeMove_of_makes h
  exact ⟨_, e, hblock, hgo, by rw [ForInstance.State.hostReadP_reads, hblock, hreads]⟩

theorem step_of_makes_readF {s : State} (h : s.makes .readF) :
    ∃ t, step s = .next t ∧ t.block = s.block ∧ HostGoesOn s t ∧ t.reads = s.reads ++ [.faultLatch s.block.fault] := by
  obtain ⟨u, e, hblock, hreads, hgo⟩ := exists_makeMove_of_makes h
  exact ⟨_, e, hblock, hgo, by rw [ForInstance.State.hostReadF_reads, hblock, hreads]⟩

/-- Settles O19: the write is made at a state with the same block. -/
theorem hostWriteStoresTheWord : Obligations.HostWriteStoresTheWord := by
  intro s i v h
  obtain ⟨u, e, hblock, hreads, hgo⟩ := exists_makeMove_of_makes h
  rw [ForInstance.State.makeMove, ForInstance.State.hostWrite, hblock] at e
  refine ⟨fun hi => ?inFile, fun hi => ?outside⟩
  case inFile =>
    rw [if_pos hi] at e
    exact ⟨_, e, s.block.read_write_self hi v, fun j hj => s.block.read_write_ne hj.symm v, rfl, rfl, hgo, hreads⟩
  case outside => rw [e, if_neg (not_lt.mpr hi)]

/-- Settles O20: the three reads are made at a state with the same block, and outside the file there is none. -/
theorem hostReadsHaveNoSideEffect : Obligations.HostReadsHaveNoSideEffect := by
  intro s
  refine ⟨fun i h hi => step_of_makes_read h hi, fun i h hi => ?outside, step_of_makes_readP, step_of_makes_readF⟩
  case outside =>
    obtain ⟨u, e, -⟩ := exists_makeMove_of_makes h
    rw [e, ForInstance.State.makeMove, ForInstance.State.hostRead, if_neg (not_lt.mpr hi)]

/-- Settles O18: `Reset` leaves the reset block, and a cleared latch is neither the one before nor one just set. -/
theorem resetLeavesNoValue : Obligations.ResetLeavesNoValue := by
  refine ⟨⟨fun j => Block.read_reset j, rfl, rfl, rfl⟩, fun s h => ?move, fun s t h hs ht => ?only⟩
  case move =>
    obtain ⟨t, e, hblock, hpc⟩ := step_of_makes_reset h
    exact ⟨t, e, by simp [hblock], by simp [hblock], by simp [hblock], hpc⟩
  case only =>
    obtain hkept | ⟨hmakes, -⟩ | ⟨hnone, -⟩ := fault_cases_of_step h
    · simp [← hkept, ht] at hs
    · exact hmakes
    · simp [hnone] at hs

/-- Settles O15: the latch blocks `HostIssue` and `exec`; a step that is not `Reset` can only keep it, and the reads
keep the block. -/
theorem faultLatchBlocksUntilReset : Obligations.FaultLatchBlocksUntilReset := by
  intro s hs
  refine ⟨fun r => ?issue, exec_of_faulted hs, fun t h hnot => ?kept, fun t h hmakes => ?cleared, fun hend => ?running,
    fun i hi h => ?read, fun h => ?readP, fun h => ?readF⟩
  case issue => rw [State.hostIssue, if_pos hs]
  case kept =>
    obtain hkept | ⟨hmakes, -⟩ | ⟨hnone, -⟩ := fault_cases_of_step h
    · exact hkept
    · exact absurd hmakes hnot
    · simp [hnone] at hs
  case cleared =>
    obtain ⟨t', e, hblock, -⟩ := step_of_makes_reset hmakes
    cases h.symm.trans e
    rw [hblock, Block.reset_fault]
  case running =>
    obtain ⟨-, hnone⟩ := hend
    rw [hnone] at hs
    nomatch hs
  case read =>
    obtain ⟨t, e, hblock, -⟩ := step_of_makes_read h hi
    exact ⟨t, e, hblock⟩
  case readP =>
    obtain ⟨t, e, hblock, -⟩ := step_of_makes_readP h
    exact ⟨t, e, hblock⟩
  case readF =>
    obtain ⟨t, e, hblock, -⟩ := step_of_makes_readF h
    exact ⟨t, e, hblock⟩

/-- Settles O21: the step is the turn of the line at `hpc`, or of the plan where `F` blocks a request. -/
theorem hostLinesAndPlannedMoves : Obligations.HostLinesAndPlannedMoves := by
  intro s
  refine ⟨fun line hl => ?goto, fun yes no b hl hp => ?branch, fun yes no hl _ => ?branchUnset, fun hl => ?ownRule,
    fun hl => ?idle, fun hb hplan => ?noPlan, fun hb m rest hplan => ?planned⟩
  case goto =>
    rw [step, ForInstance.State.turn, hl]
    rfl
  case branch =>
    rw [step, ForInstance.State.turn, hl]
    refine ⟨_, rfl, ForInstance.State.hostBranchP_block .., ForInstance.State.hostBranchP_prog .., ?_⟩
    rw [ForInstance.State.hostBranchP, hp]
    cases b <;> rfl
  case branchUnset =>
    rw [step, ForInstance.State.turn, hl]
    exact ⟨_, rfl, ForInstance.State.hostBranchP_block .., ForInstance.State.hostBranchP_prog ..⟩
  case ownRule =>
    rw [step, ForInstance.State.turn, hl]
    exact ⟨_, rfl, rfl, rfl⟩
  case idle => rw [step, ForInstance.State.turn, hl]
  case noPlan => rw [step_of_blocked hb, ForInstance.State.moveAfterFault, hplan]
  case planned => rw [step_of_blocked hb, ForInstance.State.moveAfterFault, hplan]

/-! ### What steps keep -/

/-- Settles O27: no step but `Reset` and the completion of a predicate can change `P`. -/
theorem onlyPredicatesWriteP : Obligations.OnlyPredicatesWriteP := by
  intro s t h hp
  cases blockStep_of_step h with
  | kept hblock => exact absurd (congrArg _ hblock) hp
  | reset hmakes _ => exact .inl hmakes
  | hostWrite _ hblock => exact absurd (by rw [hblock, Block.write_p]) hp
  | faultEntry _ _ _ hnext => exact absurd (by rw [hnext]; rfl) hp
  | @completed r i hline _ hd hbody =>
    refine .inr ⟨r, i, hline, hd, ?_⟩
    by_contra hi
    exact hp (bodyOf_p_of_writesP_eq_false hbody (Bool.eq_false_of_not_eq_true hi))

/-- Settles O28: no step but `Reset`, a host write and the completion of a request can change a buffer, and these
only the one written or a destination. -/
theorem onlyDestinationsAndHostWritesChangeBuffers : Obligations.OnlyDestinationsAndHostWritesChangeBuffers := by
  intro s t j h hj
  cases blockStep_of_step h with
  | kept hblock => exact absurd (congrArg (Block.read · j) hblock) hj
  | reset hmakes _ => exact .inl hmakes
  | @hostWrite j' v hmakes hblock =>
    obtain rfl : j' = j := by
      by_contra hne
      exact hj (by rw [hblock, Block.read_write_ne _ hne])
    exact .inr (.inl ⟨v, hmakes⟩)
  | faultEntry _ _ _ hnext => exact absurd (by rw [hnext]; rfl) hj
  | @completed r i hline _ hd hbody =>
    refine .inr (.inr ⟨r, i, hline, hd, ?_⟩)
    by_contra hi
    exact hj (bodyOf_read_of_notMem hbody hi)

/-- Settles O29: every write stores a word, so no step but `Reset` takes one away. -/
theorem writtenStateStaysWritten : Obligations.WrittenStateStaysWritten := by
  intro s t h hnot
  cases blockStep_of_step h with
  | kept hblock => simp [hblock]
  | reset hmakes _ => exact absurd hmakes hnot
  | hostWrite _ hblock => exact hblock ▸ ⟨fun j hj => Block.isSome_read_write hj _ _, id⟩
  | faultEntry _ _ _ hnext => exact hnext ▸ ⟨fun _ => id, id⟩
  | completed _ _ _ hbody => exact ⟨fun j => bodyOf_isSome_read hbody, fun hp => bodyOf_isSome_p hbody (.inl hp)⟩

end Sys2Proof.Machine

/-!
The distinguished constants (10_state.md R21), the closed forms of the Adder/Subtractor (43_add_sub.md section 3) and
the laws of the Logic Unit (42_logic.md), and the requests `neg`, `add` and `sub`.
-/

namespace Sys2Proof.Machine

variable {W : Nat}

/-! ### Constants -/

theorem maxWord_eq_intMax (W : Nat) : maxWord W = BitVec.intMax W :=
  eq_of_bit_eq fun i _ => by rw [bit_maxWord, bit_eq_getLsbD, BitVec.getLsbD_intMax]

/-- Settles O45: `MAXW` and `MINW` are the library's greatest and least signed words. -/
theorem constantsHaveTheirBits : Obligations.ConstantsHaveTheirBits := by
  intro W hW
  have hpos : 0 < W := by omega
  refine ⟨fun i hi => ⟨bit_zeroWord i, ?maxBit, ?minBit⟩, BitVec.toNat_zero, ?maxNat, ?minNat, BitVec.toInt_zero, ?maxInt,
    ?minInt⟩
  case maxBit =>
    have hidx : i + 1 < W ↔ i ≠ W - 1 := by omega
    rw [← bit_eq_getLsbD, bit_maxWord, decide_eq_decide.mpr hidx]
  case minBit =>
    have hidx : i + 1 = W ↔ i = W - 1 := by omega
    rw [← bit_eq_getLsbD, bit_minWord, decide_eq_decide.mpr hidx]
  case maxNat => rw [maxWord_eq_intMax, BitVec.toNat_intMax]
  case minNat => rw [minWord_eq_intMin, BitVec.toNat_intMin_of_pos hpos]
  case maxInt => rw [maxWord_eq_intMax, BitVec.toInt_intMax]
  case minInt => rw [minWord_eq_intMin, BitVec.toInt_intMin_of_pos hpos]

/-! ### Word arithmetic on the numeric readings -/

theorem ofNat_toNat_add (a b : BitVec W) : BitVec.ofNat W (a.toNat + b.toNat) = a + b := by
  rw [BitVec.ofNat_add, BitVec.ofNat_toNat, BitVec.ofNat_toNat, BitVec.setWidth_eq, BitVec.setWidth_eq]

theorem ofInt_toInt_add (a b : BitVec W) : BitVec.ofInt W (a.toInt + b.toInt) = a + b := by
  rw [BitVec.ofInt_add, BitVec.ofInt_toInt, BitVec.ofInt_toInt]

theorem ofInt_toNat (a : BitVec W) : BitVec.ofInt W a.toNat = a := by
  rw [BitVec.ofInt_natCast, BitVec.ofNat_toNat, BitVec.setWidth_eq]

theorem ofInt_sub (x y : Int) : BitVec.ofInt W (x - y) = BitVec.ofInt W x - BitVec.ofInt W y := by
  rw [sub_eq_add_neg, BitVec.ofInt_add, BitVec.ofInt_neg, BitVec.sub_eq_add_neg]

/-- Settles O47: the adder is word addition and the subtractor word subtraction, and both readings of a word wrap to
it. -/
theorem adderClosedForms : Obligations.AdderClosedForms := by
  intro W a b
  refine ⟨fun cin => ?addRc, ?add, ?subNat, ?subInt⟩
  case addRc => rw [addRc_eq_add, BitVec.ofNat_add, ofNat_toNat_add]
  case add => rw [coreAdd_eq_add, ofInt_toInt_add]
  case subNat => rw [coreSub_eq_sub, ofInt_sub, ofInt_toNat, ofInt_toNat]
  case subInt => rw [coreSub_eq_sub, ofInt_sub, BitVec.ofInt_toInt, BitVec.ofInt_toInt]

/-- Settles O49: the unit's operations are the library's bitwise ones, and negation is the subtractor's. -/
theorem logicUnitLaws : Obligations.LogicUnitLaws := by
  intro W
  refine ⟨fun w => ?involution, fun w => ?negation, fun a b c d i ha hb => ?bits⟩
  case involution => rw [coreNot_eq_not, coreNot_eq_not, BitVec.not_not]
  case negation => rw [coreNeg_eq_neg, coreAdd_eq_add, coreNot_eq_not, BitVec.neg_eq_not_add]
  case bits =>
    simp only [coreAnd_eq_and, coreOr_eq_or, coreXor_eq_xor, coreNot_eq_not, BitVec.getLsbD_and, BitVec.getLsbD_or,
      BitVec.getLsbD_xor, BitVec.getLsbD_not, ha, hb, and_self]

/-! ### The requests -/

/-- Settles O39: the word written is `coreNeg` of the source. -/
theorem negWritesTheNegation : Obligations.NegWritesTheNegation := by
  intro rd rs1 a s hwf hf ha
  have hneg : BitVec.ofInt Config.W (-(a.toNat : Int)) = coreNeg a := by
    rw [coreNeg_eq_neg, BitVec.ofInt_neg, ofInt_toNat]
  rw [hneg]
  exact ⟨spells_of_wellFormed hwf, perform_unary_writes coreNeg hwf (.head _) hf ha⟩

/-- Settles O40: the word written is `coreAdd` of the sources. -/
theorem addWritesTheWrappedSum : Obligations.AddWritesTheWrappedSum := by
  intro rd rs1 rs2 a b s hwf hf ha hb
  obtain ⟨t, ht, hwrote⟩ := perform_binary_writes coreAdd hwf (.head _) hf ha hb
  rw [coreAdd_eq_add] at hwrote
  rw [ofNat_toNat_add, ofInt_toInt_add]
  exact ⟨spells_of_wellFormed hwf, t, ht, hwrote, hwrote⟩

/-- Settles O41: the word written is `coreSub` of the sources. -/
theorem subWritesTheWrappedDifference : Obligations.SubWritesTheWrappedDifference := by
  intro rd rs1 rs2 a b s hwf hf ha hb
  obtain ⟨t, ht, hwrote⟩ := perform_binary_writes coreSub hwf (.head _) hf ha hb
  obtain ⟨-, -, hnat, hint⟩ := adderClosedForms Config.W a b
  rw [← hnat, ← hint]
  exact ⟨spells_of_wellFormed hwf, t, ht, hwrote, hwrote⟩

end Sys2Proof.Machine

/-!
The closed forms of the Shift/Mask Unit on the numeric readings of a word, and the round trip of the arithmetic shift
(41_shift_mask.md section 3).
-/

namespace Sys2Proof.Machine

variable {W : Nat}

/-! ### The shifts as shifts of words -/

theorem shiftLeftBits_eq_shiftLeft (k : Nat) (a : BitVec W) : shiftLeftBits k a = a <<< k := by
  refine eq_of_bit_eq fun i hi => ?_
  rw [bit_shiftLeftBits k a hi, bit_eq_getLsbD (a <<< k), BitVec.getLsbD_shiftLeft]
  by_cases hk : k ≤ i
  · simp [hi, hk, not_lt.mpr hk, bit_eq_getLsbD]
  · simp [hk, not_le.mp hk]

theorem shiftRightBits_false_eq_ushiftRight (k : Nat) (a : BitVec W) : shiftRightBits k false a = a >>> k := by
  refine eq_of_bit_eq fun i hi => ?_
  rw [bit_shiftRightBits k false a hi, bit_eq_getLsbD (a >>> k), BitVec.getLsbD_ushiftRight, add_comm k i]
  split_ifs with hk
  · rfl
  · rw [BitVec.getLsbD_of_ge a _ (by omega)]

theorem shiftRightBits_sign_eq_sshiftRight (k : Nat) (a : BitVec W) :
    shiftRightBits k (bit a (W - 1)) a = a.sshiftRight k := by
  refine eq_of_bit_eq fun i hi => ?_
  have hk : i + k ≤ W - 1 ↔ k + i < W := by omega
  rw [bit_shiftRightBits k _ a hi, bit_eq_getLsbD (a.sshiftRight k), BitVec.getLsbD_sshiftRight,
    decide_eq_false (not_le.mpr hi), BitVec.msb_eq_getLsbD_last, add_comm k i]
  simp only [hk, Bool.not_false, Bool.true_and, add_comm k i]
  rfl

theorem coreLsh_of_pos {c : Int} (hc : 0 < c) (a : BitVec W) : coreLsh c a = a <<< shiftAmount W c := by
  rw [coreLsh, if_pos hc, shiftLeftBits_eq_shiftLeft]

theorem coreLsh_of_neg {c : Int} (hc : c < 0) (a : BitVec W) : coreLsh c a = a >>> shiftAmount W c := by
  rw [coreLsh, if_neg hc.not_gt, if_pos hc, shiftRightBits_false_eq_ushiftRight]

theorem coreAsh_of_pos {c : Int} (hc : 0 < c) (a : BitVec W) : coreAsh c a = a <<< shiftAmount W c := by
  rw [coreAsh, if_pos hc, shiftLeftBits_eq_shiftLeft]

theorem coreAsh_of_neg {c : Int} (hc : c < 0) (a : BitVec W) : coreAsh c a = a.sshiftRight (shiftAmount W c) := by
  rw [coreAsh, if_neg hc.not_gt, if_pos hc, setbit_shiftRightBits_sign, shiftRightBits_sign_eq_sshiftRight]

/-! ### Rotations as rotations of words -/

/-- Below the amount a left rotation draws on the top of the word. -/
theorem rotateSource_of_nonneg {c : Int} (hc : 0 ≤ c) {i : Nat} (hi : i < W) :
    rotateSource W c i = if i < rotateAmount W c then W - rotateAmount W c + i else i - rotateAmount W c := by
  have hk : rotateAmount W c < W := Nat.mod_lt _ (by omega)
  generalize hj : (if i < rotateAmount W c then W - rotateAmount W c + i else i - rotateAmount W c) = j
  have hjW : j < W := by split_ifs at hj <;> omega
  have hback : rotateSource W (-c) j = i := by
    rw [rotateSource_neg_of_nonneg hc hjW]
    split_ifs at hj
    · rw [Nat.mod_eq_sub_mod (by omega), Nat.mod_eq_of_lt (by omega)]
      omega
    · rw [Nat.mod_eq_of_lt (by omega)]
      omega
  rw [← hback, rotateSource_cancel (add_neg_cancel c) hjW]

theorem coreCsh_of_nonneg {c : Int} (hc : 0 ≤ c) (a : BitVec W) : coreCsh c a = a.rotateLeft c.natAbs := by
  refine eq_of_bit_eq fun i hi => ?_
  rw [bit_coreCsh c a hi, rotateSource_of_nonneg hc hi, bit_eq_getLsbD (a.rotateLeft _), BitVec.getLsbD_rotateLeft]
  by_cases hk : i < c.natAbs % W <;> simp [rotateAmount, hk, hi, bit_eq_getLsbD]

theorem coreCsh_of_nonpos {c : Int} (hc : c ≤ 0) (a : BitVec W) : coreCsh c a = a.rotateRight c.natAbs := by
  refine eq_of_bit_eq fun i hi => ?_
  have hk : c.natAbs % W < W := Nat.mod_lt _ (by omega)
  rw [bit_coreCsh c a hi, rotateSource_of_nonpos hc hi, bit_eq_getLsbD (a.rotateRight _), BitVec.getLsbD_rotateRight,
    rotateAmount]
  by_cases hlow : i < W - c.natAbs % W
  · rw [Nat.mod_eq_of_lt (by omega), add_comm]
    simp [hlow, bit_eq_getLsbD]
  · have hwrap : i + c.natAbs % W - W = i - (W - c.natAbs % W) := by omega
    rw [Nat.mod_eq_sub_mod (by omega), Nat.mod_eq_of_lt (by omega), hwrap]
    simp [hlow, hi, bit_eq_getLsbD]

/-- The two parts of a rotated word do not overlap, so joining them adds them. -/
theorem shiftLeft_or_ushiftRight_eq_ofNat (a : BitVec W) {k m : Nat} (hkm : W ≤ k + m) :
    a <<< k ||| a >>> m = BitVec.ofNat W (a.toNat * 2 ^ k + a.toNat / 2 ^ m) := by
  have hdisjoint : a <<< k &&& a >>> m = 0#W := by
    refine BitVec.eq_of_getLsbD_eq fun i hi => ?_
    rw [BitVec.getLsbD_and, BitVec.getLsbD_shiftLeft, BitVec.getLsbD_ushiftRight, BitVec.getLsbD_zero]
    by_cases hik : i < k
    · simp [hik]
    · rw [BitVec.getLsbD_of_ge a (m + i) (by omega), Bool.and_false]
  rw [← BitVec.add_eq_or_of_and_eq_zero _ _ hdisjoint]
  refine BitVec.eq_of_toNat_eq ?_
  rw [BitVec.toNat_add, BitVec.toNat_shiftLeft, BitVec.toNat_ushiftRight, BitVec.toNat_ofNat, Nat.shiftLeft_eq,
    Nat.shiftRight_eq_div_pow, Nat.mod_add_mod]

/-! ### The mask on numbers -/

theorem coreMask_of_pos {c : Int} (hc : 0 < c) (a : BitVec W) :
    coreMask c a = BitVec.ofNat W (a.toNat % 2 ^ maskAmount W c) := by
  refine eq_of_bit_eq fun i hi => ?_
  rw [bit_coreMask c a hi, if_pos hc, bit_eq_getLsbD (BitVec.ofNat _ _), BitVec.getLsbD_ofNat, Nat.testBit_mod_two_pow]
  split_ifs with hk <;> simp [hk, hi, bit_eq_getLsbD, BitVec.testBit_toNat]

/-- What is left of a number when its low `m` bits are taken away. -/
theorem testBit_sub_mod_two_pow (x m i : Nat) :
    (x - x % 2 ^ m).testBit i = (decide (m ≤ i) && x.testBit i) := by
  have hsplit : x - x % 2 ^ m = x / 2 ^ m * 2 ^ m := by
    have := Nat.div_add_mod' x (2 ^ m)
    omega
  rw [hsplit, Nat.testBit_mul_two_pow, Nat.testBit_div_two_pow]
  by_cases hm : m ≤ i <;> simp [hm]

theorem coreMask_of_neg {c : Int} (hc : c < 0) (a : BitVec W) :
    coreMask c a = BitVec.ofNat W (a.toNat - a.toNat % 2 ^ (W - maskAmount W c)) := by
  refine eq_of_bit_eq fun i hi => ?_
  rw [bit_coreMask c a hi, if_neg hc.not_gt, if_pos hc, bit_eq_getLsbD (BitVec.ofNat _ _), BitVec.getLsbD_ofNat,
    testBit_sub_mod_two_pow]
  split_ifs with hk <;> simp [hk, hi, bit_eq_getLsbD, BitVec.testBit_toNat]

/-! ### Numeric readings of the shifts -/

theorem shiftLeft_eq_ofNat (a : BitVec W) (k : Nat) : a <<< k = BitVec.ofNat W (a.toNat * 2 ^ k) :=
  BitVec.eq_of_toNat_eq (by rw [BitVec.toNat_shiftLeft, BitVec.toNat_ofNat, Nat.shiftLeft_eq])

theorem ushiftRight_eq_ofNat (a : BitVec W) (k : Nat) : a >>> k = BitVec.ofNat W (a.toNat / 2 ^ k) := by
  rw [← Nat.shiftRight_eq_div_pow, ← BitVec.toNat_ushiftRight, BitVec.ofNat_toNat, BitVec.setWidth_eq]

theorem sshiftRight_eq_ofInt (a : BitVec W) (k : Nat) : a.sshiftRight k = BitVec.ofInt W (a.toInt / 2 ^ k) := by
  rw [BitVec.sshiftRight, Int.shiftRight_eq_div_pow, Nat.cast_pow, Nat.cast_ofNat]

/-- Settles O50: each core function is a shift, a rotation or a cut of the word, and each of these is arithmetic on
its number. -/
theorem shiftMaskClosedForms : Obligations.ShiftMaskClosedForms := by
  intro W a c hW
  have hrotate : c.natAbs % W < W := Nat.mod_lt _ (by omega)
  refine ⟨fun hc => ⟨?ashLeft, ?lshLeft, ?cshLeft, coreMask_of_pos hc a⟩,
    fun hc => ⟨?ashRight, ?lshRight, ?cshRight, coreMask_of_neg hc a⟩, fun hc => ?zero⟩
  case ashLeft => rw [coreAsh_of_pos hc, shiftLeft_eq_ofNat, shiftAmount]
  case lshLeft => rw [coreLsh_of_pos hc, shiftLeft_eq_ofNat, shiftAmount]
  case cshLeft => rw [coreCsh_of_nonneg hc.le, BitVec.rotateLeft_def, shiftLeft_or_ushiftRight_eq_ofNat a (by omega)]
  case ashRight => rw [coreAsh_of_neg hc, sshiftRight_eq_ofInt, shiftAmount]
  case lshRight => rw [coreLsh_of_neg hc, ushiftRight_eq_ofNat, shiftAmount]
  case cshRight =>
    rw [coreCsh_of_nonpos hc.le, BitVec.rotateRight_def, BitVec.or_comm, shiftLeft_or_ushiftRight_eq_ofNat a (by omega),
      add_comm]
  case zero =>
    subst hc
    exact ⟨rfl, rfl, coreCsh_of_dvd (dvd_zero _) a, rfl⟩

/-! ### The round trip -/

theorem shiftAmount_neg (c : Int) : shiftAmount W (-c) = shiftAmount W c := by
  rw [shiftAmount, Int.natAbs_neg, shiftAmount]

/-- Settles O51: the bit that the second shift draws on is one the first put there, or the sign bit. -/
theorem arithmeticShiftRoundTrip : Obligations.ArithmeticShiftRoundTrip := by
  intro W w c hW
  have hk : shiftAmount W c ≤ W - 1 := Nat.min_le_right _ _
  simp only [← bit_eq_getLsbD]
  refine ⟨fun hc i hi => ?rightLeft, fun hc i hi => ?leftRight⟩
  case rightLeft =>
    rw [bit_coreAsh _ _ hi, if_pos (by omega), shiftAmount_neg]
    change _ = (decide (shiftAmount W c ≤ i) && bit w i)
    by_cases hki : shiftAmount W c ≤ i
    · rw [if_pos hki, bit_coreAsh _ _ (by omega), if_neg (by omega), if_pos hc, Nat.sub_add_cancel hki,
        if_pos (by omega), decide_eq_true hki, Bool.true_and]
    · rw [if_neg hki, decide_eq_false hki, Bool.false_and]
  case leftRight =>
    rw [bit_coreAsh _ _ hi, if_neg (by omega), if_pos (by omega), shiftAmount_neg]
    change _ = bit w (min i (W - 1 - shiftAmount W c))
    split_ifs with hik
    · rw [bit_coreAsh _ _ (by omega), if_pos hc, if_pos (by omega), Nat.add_sub_cancel, min_eq_left (by omega)]
    · rw [bit_coreAsh _ _ (by omega), if_pos hc, if_pos hk, min_eq_right (by omega)]

end Sys2Proof.Machine

/-!
The Multiplier (44_multiplier.md): the magnitude of an operand, how often the loop runs, and that shift-and-add keeps
accumulator plus product of the two working words, so that it ends with the product.
-/

namespace Sys2Proof.Machine

variable {W : Nat}

/-! ### Magnitudes (R180 step 2) -/

theorem coreIsneg_eq_msb (a : BitVec W) : coreIsneg a = a.msb := by
  rw [coreIsneg_eq_getLsbD, BitVec.msb_eq_getLsbD_last]

theorem bit_top_eq_msb (a : BitVec W) : bit a (W - 1) = a.msb := by
  rw [bit_eq_getLsbD, BitVec.msb_eq_getLsbD_last]

theorem magnitude_eq_abs (a : BitVec W) : magnitude a = a.abs := by
  rw [magnitude, coreIsneg_eq_msb, coreNeg_eq_neg]
  rfl

/-- Settles O53: a negative word's number is `2 ^ W` above its signed reading, and the negation takes it from
`2 ^ W`. -/
theorem magnitudeIsTheAbsoluteValue : Obligations.MagnitudeIsTheAbsoluteValue := by
  intro W a _
  have hlt := a.isLt
  rw [magnitude_eq_abs, BitVec.toNat_abs]
  cases hsign : a.msb with
  | false =>
    rw [BitVec.toInt_eq_toNat_of_msb hsign, abs_of_nonneg (Int.natCast_nonneg _)]
    rfl
  | true =>
    rw [abs_of_neg (BitVec.toInt_neg_of_msb_true hsign), BitVec.toInt_eq_msb_cond, hsign, if_pos rfl, if_pos rfl,
      Nat.cast_sub hlt.le]
    omega

/-! ### The test of the loop (R180 step 3) -/

theorem coreIszero_iff_eq_zero (a : BitVec W) : coreIszero a = true ↔ a = 0#W := by
  rw [coreIszero_eq_true_iff]
  constructor
  · exact fun h => eq_of_bit_eq fun i hi => by rw [bit_eq_getLsbD, h i hi, bit_zero]
  · exact fun h i _ => by rw [h, BitVec.getLsbD_zero]

theorem coreIszero_iff_size (a : BitVec W) : coreIszero a = true ↔ Nat.size a.toNat = 0 := by
  rw [coreIszero_iff_eq_zero, Nat.size_eq_zero, BitVec.toNat_eq, BitVec.toNat_zero]

theorem size_toNat_le (a : BitVec W) : Nat.size a.toNat ≤ W := Nat.size_le.mpr a.isLt

/-- Halving takes one bit off the length of a number. -/
theorem size_div_two (n : Nat) : Nat.size (n / 2) = Nat.size n - 1 := by
  obtain rfl | hn := Nat.eq_zero_or_pos n
  · rfl
  · have hbit := Nat.bit_bodd_div2 n
    have hsize := Nat.size_bit (b := n.bodd) (n := n.div2) (by omega)
    rw [hbit, Nat.div2_val] at hsize
    omega

/-! ### The loop -/

/-- A word is twice its right shift plus its lowest bit. -/
theorem eq_ushiftRight_mul_two_add_bit (a : BitVec W) :
    a = (a >>> 1) * BitVec.ofNat W 2 + BitVec.ofNat W (bit a 0).toNat := by
  have hbit : (bit a 0).toNat = a.toNat % 2 := by rw [bit, BitVec.getLsbD, Nat.toNat_testBit, pow_zero, Nat.div_one]
  rw [ushiftRight_eq_ofNat, ← BitVec.ofNat_mul, ← BitVec.ofNat_add, hbit, pow_one, Nat.div_add_mod', BitVec.ofNat_toNat,
    BitVec.setWidth_eq]

theorem shiftLeft_one_eq_mul_two (a : BitVec W) : a <<< 1 = a * BitVec.ofNat W 2 := by
  rw [shiftLeft_eq_ofNat, BitVec.ofNat_mul, BitVec.ofNat_toNat, BitVec.setWidth_eq, pow_one]

theorem mulBody_acc_eq (r : MulRegs W) : (mulBody r).acc = r.acc + r.m1 * BitVec.ofNat W (bit r.m2 0).toNat := by
  rw [mulBody, coreAdd_eq_add]
  cases bit r.m2 0 <;> simp

section Loop

variable [hW : W.AtLeastTwo]

theorem shiftAmount_one : shiftAmount W 1 = 1 := by
  have h2 : 2 ≤ W := hW.prop
  rw [shiftAmount]
  omega

theorem coreLsh_one (a : BitVec W) : coreLsh 1 a = a <<< 1 := by
  rw [coreLsh_of_pos one_pos, shiftAmount_one]

theorem coreLsh_neg_one (a : BitVec W) : coreLsh (-1) a = a >>> 1 := by
  rw [coreLsh_of_neg (by decide), shiftAmount_neg, shiftAmount_one]

theorem size_mulBody_m2 (r : MulRegs W) : Nat.size (mulBody r).m2.toNat = Nat.size r.m2.toNat - 1 := by
  rw [mulBody, coreLsh_neg_one, BitVec.toNat_ushiftRight, Nat.shiftRight_one, size_div_two]

/-- The loop runs as often as the shifted operand is long, or as the bound allows. -/
theorem mulWhile_eq_iterate (n : Nat) (r : MulRegs W) : mulWhile n r = mulBody^[min n (Nat.size r.m2.toNat)] r := by
  induction n generalizing r with
  | zero => rw [mulWhile, Nat.zero_min, Function.iterate_zero_apply]
  | succ n ih =>
    rw [mulWhile]
    by_cases hz : Nat.size r.m2.toNat = 0
    · rw [if_pos ((coreIszero_iff_size r.m2).mpr hz), hz, Nat.min_zero, Function.iterate_zero_apply]
    · have hcount : min (n + 1) (Nat.size r.m2.toNat) = min n (Nat.size r.m2.toNat - 1) + 1 := by omega
      rw [if_neg (mt (coreIszero_iff_size r.m2).mp hz), ih, size_mulBody_m2, hcount, Function.iterate_succ_apply]

theorem size_iterate_mulBody_m2 (n : Nat) (r : MulRegs W) :
    Nat.size (mulBody^[n] r).m2.toNat = Nat.size r.m2.toNat - n := by
  induction n with
  | zero => rfl
  | succ n ih => rw [Function.iterate_succ_apply', size_mulBody_m2, ih, Nat.sub_sub]

/-! ### The product -/

/-- A round keeps the accumulator plus the product of the two working words. -/
theorem mulBody_acc_add_mul (r : MulRegs W) :
    (mulBody r).acc + (mulBody r).m1 * (mulBody r).m2 = r.acc + r.m1 * r.m2 := by
  have hm1 : (mulBody r).m1 = r.m1 * BitVec.ofNat W 2 := (coreLsh_one r.m1).trans (shiftLeft_one_eq_mul_two r.m1)
  have hm2 : (mulBody r).m2 = r.m2 >>> 1 := coreLsh_neg_one r.m2
  have hsplit := eq_ushiftRight_mul_two_add_bit r.m2
  rw [mulBody_acc_eq, hm1, hm2]
  generalize r.m2 >>> 1 = half at hsplit ⊢
  generalize BitVec.ofNat W (bit r.m2 0).toNat = low at hsplit ⊢
  rw [hsplit]
  ring

theorem iterate_mulBody_acc_add_mul (n : Nat) (r : MulRegs W) :
    (mulBody^[n] r).acc + (mulBody^[n] r).m1 * (mulBody^[n] r).m2 = r.acc + r.m1 * r.m2 := by
  induction n with
  | zero => rfl
  | succ n ih => rw [Function.iterate_succ_apply', mulBody_acc_add_mul, ih]

/-- Where the bound does not cut the loop short, it ends with `m2` zero and so with the product in the accumulator. -/
theorem mulWhile_acc (m1 m2 : BitVec W) : (mulWhile W { m1 := m1, m2 := m2, acc := zeroWord W }).acc = m1 * m2 := by
  generalize hr : ({ m1 := m1, m2 := m2, acc := zeroWord W } : MulRegs W) = r
  have hzero : (mulBody^[min W (Nat.size r.m2.toNat)] r).m2 = 0#W := by
    rw [← coreIszero_iff_eq_zero, coreIszero_iff_size, size_iterate_mulBody_m2, Nat.min_eq_right (size_toNat_le r.m2),
      Nat.sub_self]
  have hkept := iterate_mulBody_acc_add_mul (min W (Nat.size r.m2.toNat)) r
  rw [hzero, BitVec.mul_zero, BitVec.add_zero] at hkept
  rw [mulWhile_eq_iterate, hkept, ← hr, zeroWord, BitVec.zero_add]

/-- Negating the product of the magnitudes where the signs differ gives the product of the words (R180 step 4). -/
theorem coreMul_eq_mul (a b : BitVec W) : coreMul a b = a * b := by
  rw [coreMul]
  simp only [mulWhile_acc, bit_top_eq_msb, magnitude_eq_abs, BitVec.abs, coreNeg_eq_neg]
  cases a.msb <;> cases b.msb <;> simp

end Loop

theorem ofInt_toInt_mul (a b : BitVec W) : BitVec.ofInt W (a.toInt * b.toInt) = a * b := by
  rw [BitVec.ofInt_mul, BitVec.ofInt_toInt, BitVec.ofInt_toInt]

theorem ofNat_toNat_mul (a b : BitVec W) : BitVec.ofNat W (a.toNat * b.toNat) = a * b := by
  rw [BitVec.ofNat_mul, BitVec.ofNat_toNat, BitVec.ofNat_toNat, BitVec.setWidth_eq, BitVec.setWidth_eq]

/-- Settles O54: each round shortens the shifted operand by one bit. -/
theorem multiplierLoopEndsWithinTheWordLength : Obligations.MultiplierLoopEndsWithinTheWordLength := by
  intro W n _ r
  refine ⟨mulWhile_eq_iterate n r, ?ends, size_toNat_le r.m2⟩
  case ends =>
    rw [coreIszero_iff_size, mulWhile_eq_iterate, size_iterate_mulBody_m2]
    omega

/-- Settles O55: the multiplier is word multiplication, to which both readings of the words wrap. -/
theorem multiplierComputesTheProduct : Obligations.MultiplierComputesTheProduct := by
  intro W _ a b
  rw [coreMul_eq_mul, ofInt_toInt_mul, ofNat_toNat_mul]
  exact ⟨rfl, rfl⟩

/-- Settles O42: the word written is `coreMul` of the sources. -/
theorem mulWritesTheWrappedProduct : Obligations.MulWritesTheWrappedProduct := by
  intro rd rs1 rs2 a b s hwf hf ha hb
  have := Config.reference.atLeastTwo
  obtain ⟨t, ht, hwrote⟩ := perform_binary_writes coreMul hwf (.head _) hf ha hb
  rw [coreMul_eq_mul] at hwrote
  rw [ofInt_toInt_mul, ofNat_toNat_mul]
  exact ⟨spells_of_wellFormed hwf, t, ht, hwrote, hwrote⟩

end Sys2Proof.Machine

/-!
The Divider (45_divider.md): the restoring loop is division of numbers, from the highest bit of the dividend down; so
its signed form is the truncated division of words, saturating where the divisor is zero.
-/

namespace Sys2Proof.Machine

variable {W : Nat} {α : Type}

/-! ### The descending loop -/

/-- A property that holds above a descending loop, and that the iteration at `i` carries from `i + 1` to `i`, holds
below it. -/
theorem forDown_induction {body : Nat → α → α} {P : Nat → α → Prop} (n : Nat)
    (hstep : ∀ i z, i < n → P (i + 1) z → P i (body i z)) {y : α} (hy : P n y) : P 0 (forDown body n y) := by
  induction n generalizing y with
  | zero => exact hy
  | succ n ih => exact ih (fun i z hi => hstep i z (by omega)) (hstep n y (Nat.lt_succ_self n) hy)

/-! ### One iteration (R200 step 3, R205) -/

/-- Setting a bit that is clear adds its weight. -/
theorem toNat_setbit_true {v : BitVec W} {i : Nat} (hi : i < W) (h : bit v i = false) :
    (setbit v i true).toNat = v.toNat + 2 ^ i := by
  have hdisjoint : v &&& BitVec.twoPow W i = 0#W := by
    rw [BitVec.and_twoPow, if_neg (by rw [← bit_eq_getLsbD, h]; nofun)]
  rw [setbit, if_pos rfl, ← BitVec.twoPow_eq, ← BitVec.add_eq_or_of_and_eq_zero _ _ hdisjoint,
    BitVec.toNat_add_of_and_eq_zero hdisjoint, BitVec.toNat_twoPow_of_lt hi]

theorem setbit_false_of_clear {v : BitVec W} {i : Nat} (h : bit v i = false) : setbit v i false = v := by
  refine eq_of_bit_eq fun j _ => ?_
  rw [bit_setbit]
  split_ifs with hj
  · rw [hj.1, h]
  · rfl

/-- Setting a clear bit to `b` adds `b` at its weight. -/
theorem toNat_setbit {v : BitVec W} {i : Nat} (hi : i < W) (h : bit v i = false) (b : Bool) :
    (setbit v i b).toNat = v.toNat + b.toNat * 2 ^ i := by
  cases b with
  | false => rw [setbit_false_of_clear h, Bool.toNat_false, zero_mul, add_zero]
  | true => rw [toNat_setbit_true hi h, Bool.toNat_true, one_mul]

theorem toNat_bit (v : BitVec W) (i : Nat) : (bit v i).toNat = v.toNat / 2 ^ i % 2 := by
  rw [bit, BitVec.getLsbD, Nat.toNat_testBit]

/-- A number that `2 ^ (i + 1)` divides has bit `i` clear. -/
theorem bit_eq_false_of_toNat {v : BitVec W} {i x : Nat} (h : v.toNat = x * 2 ^ (i + 1)) : bit v i = false := by
  rw [bit, BitVec.getLsbD, h, Nat.testBit_mul_two_pow, decide_eq_false (by omega), Bool.false_and]

/-- The trial word is the difference, where there is one. -/
theorem toNat_coreSub_of_le {r d : BitVec W} (h : d.toNat ≤ r.toNat) : (coreSub r d).toNat = r.toNat - d.toNat := by
  rw [coreSub_eq_sub, BitVec.toNat_sub_of_le h]

section Loop

variable [hW : W.AtLeastTwo]

theorem two_pow_pred_mul_two : 2 ^ (W - 1) * 2 = 2 ^ W :=
  Nat.two_pow_pred_mul_two (by have := hW.prop; omega)

/-- The remainder with the next bit of the dividend brought down, where the shift loses no bit. -/
theorem toNat_bringDown (n : BitVec W) (i : Nat) {r : BitVec W} (hr : r.toNat < 2 ^ (W - 1)) :
    (bringDown n i r).toNat = 2 * r.toNat + n.toNat / 2 ^ i % 2 := by
  have h2 : 2 ≤ W := hW.prop
  have hpow := two_pow_pred_mul_two (W := W)
  have hshift : (coreLsh 1 r).toNat = r.toNat * 2 ^ (0 + 1) := by
    rw [coreLsh_one, BitVec.toNat_shiftLeft, Nat.shiftLeft_eq, Nat.mod_eq_of_lt (by omega)]
  rw [bringDown, toNat_setbit (by omega) (bit_eq_false_of_toNat hshift), hshift, toNat_bit]
  omega

/-- The sign test on the trial word is the unsigned comparison. -/
theorem coreIsnneg_coreSub_iff {r d : BitVec W} (hd : d.toNat ≤ 2 ^ (W - 1)) (hr : r.toNat < 2 * d.toNat) :
    coreIsnneg (coreSub r d) = true ↔ d.toNat ≤ r.toNat := by
  have hpow := two_pow_pred_mul_two (W := W)
  rw [coreIsnneg_eq_not_coreIsneg, coreIsneg_eq_msb, Bool.not_eq_true', BitVec.msb_eq_false_iff_two_mul_lt]
  by_cases hle : d.toNat ≤ r.toNat
  · rw [toNat_coreSub_of_le hle]
    omega
  · rw [coreSub_eq_sub, BitVec.toNat_sub, Nat.mod_eq_of_lt (by omega)]
    omega

/-! ### The loop -/

/-- One digit of long division: `β` is brought down to the remainder of `M`, and the divisor goes into it at most
once. -/
theorem div_mod_bringDown {M β d : Nat} (hβ : β < 2) (hd : 0 < d) :
    (2 * M + β) / d = 2 * (M / d) + (if d ≤ 2 * (M % d) + β then 1 else 0) ∧
    (2 * M + β) % d = if d ≤ 2 * (M % d) + β then 2 * (M % d) + β - d else 2 * (M % d) + β := by
  have hmod : M % d < d := Nat.mod_lt M hd
  have hsplit : 2 * M + β = 2 * (M % d) + β + d * (2 * (M / d)) := by
    have hM := Nat.mod_add_div M d
    calc 2 * M + β = 2 * (M % d + d * (M / d)) + β := by rw [hM]
      _ = _ := by ring
  rw [hsplit, Nat.add_mul_div_left _ _ hd, Nat.add_mul_mod_self_left]
  split_ifs with hle
  · rw [Nat.div_eq_sub_div hd hle, Nat.mod_eq_sub_mod hle, Nat.div_eq_of_lt (by omega), Nat.mod_eq_of_lt (by omega)]
    omega
  · rw [Nat.div_eq_of_lt (by omega), Nat.mod_eq_of_lt (by omega)]
    omega

/-- Before the iteration at `i − 1`: quotient and remainder of the dividend's bits from `i` up. -/
def DividedDownTo (n d : BitVec W) (i : Nat) (st : DivRegs W) : Prop :=
  st.q.toNat = n.toNat / 2 ^ i / d.toNat * 2 ^ i ∧ st.r.toNat = n.toNat / 2 ^ i % d.toNat

theorem divBody_keeps_division {n d : BitVec W} (hd0 : 0 < d.toNat) (hd : d.toNat ≤ 2 ^ (W - 1)) {i : Nat} (hi : i < W)
    {st : DivRegs W} (h : DividedDownTo n d (i + 1) st) : DividedDownTo n d i (divBody n d i st) := by
  obtain ⟨hq, hr⟩ := h
  have hbits : n.toNat / 2 ^ i = 2 * (n.toNat / 2 ^ (i + 1)) + n.toNat / 2 ^ i % 2 := by
    rw [pow_succ, ← Nat.div_div_eq_div_mul]
    omega
  have hβ : n.toNat / 2 ^ i % 2 < 2 := Nat.mod_lt _ two_pos
  have hrlt : st.r.toNat < d.toNat := hr ▸ Nat.mod_lt _ hd0
  have hdown := toNat_bringDown n i (hrlt.trans_le hd)
  obtain ⟨hdiv, hmod⟩ := div_mod_bringDown (M := n.toNat / 2 ^ (i + 1)) hβ hd0
  rw [← hbits, ← hr, ← hdown] at hdiv hmod
  have htest := coreIsnneg_coreSub_iff (r := bringDown n i st.r) hd (by omega)
  rw [divBody, DividedDownTo, hdiv, hmod]
  by_cases hle : d.toNat ≤ (bringDown n i st.r).toNat
  · rw [if_pos (htest.mpr hle), if_pos hle, if_pos hle]
    refine ⟨?_, toNat_coreSub_of_le hle⟩
    rw [toNat_setbit_true hi (bit_eq_false_of_toNat hq), hq]
    ring
  · rw [if_neg (mt htest.mp hle), if_neg hle, if_neg hle]
    refine ⟨?_, rfl⟩
    rw [hq]
    ring

/-- The loop divides, for every dividend. -/
theorem divMagnitudes_divides (n : BitVec W) {d : BitVec W} (hd0 : 0 < d.toNat) (hd : d.toNat ≤ 2 ^ (W - 1)) :
    (divMagnitudes n d).q.toNat = n.toNat / d.toNat ∧ (divMagnitudes n d).r.toNat = n.toNat % d.toNat := by
  have hstart : DividedDownTo n d W { q := zeroWord W, r := zeroWord W } := by
    rw [DividedDownTo, Nat.div_eq_of_lt n.isLt, Nat.zero_div, zero_mul, Nat.zero_mod]
    exact ⟨rfl, rfl⟩
  obtain ⟨hq, hr⟩ := forDown_induction (P := DividedDownTo n d) W
    (fun i st hi h => divBody_keeps_division hd0 hd hi h) hstart
  rw [pow_zero, Nat.div_one] at hq hr
  exact ⟨hq.trans (mul_one _), hr⟩

end Loop

/-- Settles O57: the quotient and remainder are those of `divMagnitudes_divides`; the bound on the dividend is not
needed. -/
theorem restoringLoopDividesMagnitudes : Obligations.RestoringLoopDividesMagnitudes := by
  intro W _ n d hd0 hd
  exact ⟨coreIsnneg_coreSub_iff hd, fun _ => divMagnitudes_divides n (Nat.pos_of_ne_zero hd0) hd⟩

end Sys2Proof.Machine

/-!
Signed division (45_divider.md R200 to R206): outside division by zero the divider is the library's truncated signed
division of words, whose readings give the closed forms, the division identity and the results of the requests.
-/

namespace Sys2Proof.Machine

variable {W : Nat}

/-! ### The divider on words -/

theorem toNat_abs_pos {b : BitVec W} (hb : b ≠ 0#W) : 0 < b.abs.toNat := by
  have hlt := b.isLt
  have hne : b.toNat ≠ 0 := fun h => hb (BitVec.eq_of_toNat_eq h)
  rw [BitVec.toNat_abs]
  split_ifs <;> omega

section Core

variable [hW : W.AtLeastTwo]

theorem width_pos : 0 < W := by
  have h2 : 2 ≤ W := hW.prop
  omega

/-- A magnitude is at most `2 ^ (W - 1)`, the bound of R205. -/
theorem toNat_abs_le (a : BitVec W) : a.abs.toNat ≤ 2 ^ (W - 1) := by
  have hpow := two_pow_pred_mul_two (W := W)
  rw [BitVec.toNat_abs]
  split_ifs with hsign
  · have := BitVec.msb_eq_true_iff_two_mul_ge.mp hsign
    omega
  · have := BitVec.msb_eq_false_iff_two_mul_lt.mp (Bool.eq_false_of_not_eq_true hsign)
    omega

/-- The loop on the magnitudes, as division of words. -/
theorem divMagnitudes_abs (a : BitVec W) {b : BitVec W} (hb : b ≠ 0#W) :
    divMagnitudes a.abs b.abs = { q := a.abs / b.abs, r := a.abs % b.abs } := by
  obtain ⟨hq, hr⟩ := divMagnitudes_divides a.abs (toNat_abs_pos hb) (toNat_abs_le b)
  rw [← BitVec.toNat_udiv] at hq
  rw [← BitVec.toNat_umod] at hr
  rw [← BitVec.eq_of_toNat_eq hq, ← BitVec.eq_of_toNat_eq hr]

/-- Restoring the signs of quotient and remainder (R200 step 4) gives truncated division. -/
theorem divcore_eq_sdiv_srem (a : BitVec W) {b : BitVec W} (hb : b ≠ zeroWord W) :
    divcore a b = (a.sdiv b, a.srem b) := by
  rw [divcore, if_neg (mt (coreIszero_iff_eq_zero b).mp hb), magnitude_eq_abs, magnitude_eq_abs, divMagnitudes_abs a hb,
    BitVec.sdiv_eq, BitVec.srem_eq]
  simp only [bit_top_eq_msb, BitVec.abs, coreNeg_eq_neg]
  cases a.msb <;> cases b.msb <;> rfl

/-- Step 1 of R200. -/
theorem divcore_zeroWord (a : BitVec W) :
    divcore a (zeroWord W) = (if a.msb then minWord W else maxWord W, zeroWord W) := by
  rw [divcore, if_pos ((coreIszero_iff_eq_zero (zeroWord W)).mpr rfl), coreIsnneg_eq_not_coreIsneg, coreIsneg_eq_msb]
  cases a.msb <;> rfl

end Core

/-! ### Its readings -/

theorem sdiv_eq_ofInt (a b : BitVec W) : a.sdiv b = BitVec.ofInt W (a.toInt.tdiv b.toInt) :=
  BitVec.eq_of_toInt_eq (by rw [BitVec.toInt_sdiv, BitVec.toInt_ofInt])

theorem toInt_srem_eq_sub (a b : BitVec W) : (a.srem b).toInt = a.toInt - a.toInt.tdiv b.toInt * b.toInt := by
  rw [BitVec.toInt_srem, Int.tmod_def, mul_comm]

theorem srem_eq_ofInt (a b : BitVec W) :
    a.srem b = BitVec.ofInt W (a.toInt - a.toInt.tdiv b.toInt * b.toInt) := by
  rw [← toInt_srem_eq_sub, BitVec.ofInt_toInt]

theorem toInt_ne_zero {b : BitVec W} (hb : b ≠ zeroWord W) : b.toInt ≠ 0 :=
  fun h => hb (BitVec.eq_of_toInt_eq (h.trans BitVec.toInt_zero.symm))

/-- Settles O56: step 1 of the divider, on the sign bit. -/
theorem divisionByZeroSaturates : Obligations.DivisionByZeroSaturates := by
  intro W _ a
  rw [divcore_zeroWord, BitVec.msb_eq_getLsbD_last]

theorem toInt_allOnes_of_pos (hW : 0 < W) : (BitVec.allOnes W).toInt = -1 := by
  rw [BitVec.toInt_allOnes, if_pos hW]

/-- The one division that overflows: its quotient wraps to the dividend. -/
theorem intMin_sdiv_allOnes (W : Nat) : (BitVec.intMin W).sdiv (BitVec.allOnes W) = BitVec.intMin W := by
  rw [← BitVec.neg_one_eq_allOnes, BitVec.intMin_sdiv_neg_one]

theorem srem_allOnes (hW : 0 < W) (a : BitVec W) : a.srem (BitVec.allOnes W) = 0#W := by
  refine BitVec.srem_zero_of_dvd ?_
  rw [toInt_allOnes_of_pos hW]
  exact neg_dvd.mpr (one_dvd _)

theorem abs_tmod_lt (x : Int) {y : Int} (hy : y ≠ 0) : |x.tmod y| < |y| := by
  rw [Int.abs_eq_natAbs, Int.abs_eq_natAbs, Int.natAbs_tmod]
  exact_mod_cast Nat.mod_lt _ (Int.natAbs_pos.mpr hy)

/-- Settles O58: the divider is the truncated division of words, which overflows at one place only. -/
theorem dividerComputesTruncatedDivision : Obligations.DividerComputesTruncatedDivision := by
  intro W _ a b hb
  have hW : 0 < W := width_pos
  have hones : BitVec.allOnes W ≠ zeroWord W := fun h => by
    have h1 := toInt_allOnes_of_pos hW
    rw [h, zeroWord, BitVec.toInt_zero] at h1
    nomatch h1
  rw [divcore_eq_sdiv_srem a hb, divcore_eq_sdiv_srem _ hones]
  refine ⟨?words, toInt_srem_eq_sub a b, ?bound, fun h => ?exact, ?overflow⟩
  case words => rw [sdiv_eq_ofInt, srem_eq_ofInt]
  case bound =>
    rw [BitVec.toInt_srem]
    exact abs_tmod_lt _ (toInt_ne_zero hb)
  case exact =>
    rw [minWord_eq_intMin, ← BitVec.neg_one_eq_allOnes] at h
    exact BitVec.toInt_sdiv_of_ne_or_ne a b h
  case overflow => rw [minWord_eq_intMin, intMin_sdiv_allOnes, srem_allOnes hW, zeroWord]

/-! ### The division identity (R206) -/

/-- Quotient times divisor plus remainder is the dividend, also where the quotient wraps. -/
theorem sdiv_mul_add_srem (a b : BitVec W) : a.sdiv b * b + a.srem b = a := by
  calc a.sdiv b * b + a.srem b
    _ = BitVec.ofInt W (a.toInt.tdiv b.toInt * b.toInt + (a.toInt - a.toInt.tdiv b.toInt * b.toInt)) := by
      rw [BitVec.ofInt_add, BitVec.ofInt_mul, BitVec.ofInt_toInt, ← sdiv_eq_ofInt, ← srem_eq_ofInt]
    _ = a := by rw [add_sub_cancel, BitVec.ofInt_toInt]

/-- A truncated quotient that is not zero is negative exactly where the signs differ. -/
theorem decide_tdiv_neg {x y : Int} (h : x.tdiv y ≠ 0) :
    decide (x.tdiv y < 0) = (decide (x < 0) ^^ decide (y < 0)) := by
  rcases lt_or_ge x 0 with hx | hx <;> rcases lt_or_ge y 0 with hy | hy
  · have hq := Int.tdiv_nonneg_of_nonpos_of_nonpos hx.le hy.le
    simp [hx, hy, hq]
  · have hneg := Int.tdiv_nonneg (neg_nonneg.mpr hx.le) hy
    have hq : x.tdiv y ≤ 0 := by rwa [Int.neg_tdiv, neg_nonneg] at hneg
    simp [hx, hy, lt_of_le_of_ne hq h]
  · have hq := Int.tdiv_nonpos_of_nonneg_of_nonpos hx hy.le
    simp [hx, hy, lt_of_le_of_ne hq h]
  · have hq := Int.tdiv_nonneg hx hy
    simp [not_lt.mpr hx, not_lt.mpr hy, hq]

/-- The sign of a quotient that is not zero and did not wrap. -/
theorem msb_sdiv {a b : BitVec W} (hq : a.sdiv b ≠ 0#W) (h : a ≠ BitVec.intMin W ∨ b ≠ -1#W) :
    (a.sdiv b).msb = (a.msb ^^ b.msb) := by
  have hint := BitVec.toInt_sdiv_of_ne_or_ne a b h
  have hne : a.toInt.tdiv b.toInt ≠ 0 := hint ▸ toInt_ne_zero hq
  rw [BitVec.msb_eq_toInt, BitVec.msb_eq_toInt, BitVec.msb_eq_toInt, hint, decide_tdiv_neg hne]

/-- Settles O59: the identity and the signs are those of the truncated division of words. -/
theorem divisionIdentity : Obligations.DivisionIdentity := by
  intro W _ a b hb
  have hdiv : coreDiv a b = a.sdiv b := congrArg Prod.fst (divcore_eq_sdiv_srem a hb)
  have hrem : coreRem a b = a.srem b := congrArg Prod.snd (divcore_eq_sdiv_srem a hb)
  rw [hdiv, hrem]
  simp only [← BitVec.msb_eq_getLsbD_last]
  refine ⟨?identity, fun hq hexact => ?quotient, fun hr => ?remainder⟩
  case identity => rw [coreAdd_eq_add, coreMul_eq_mul, sdiv_mul_add_srem]
  case quotient =>
    rw [minWord_eq_intMin, ← BitVec.neg_one_eq_allOnes, not_and_or] at hexact
    exact msb_sdiv hq hexact
  case remainder =>
    have hr0 : a.srem b ≠ 0 := hr
    rw [BitVec.msb_srem, decide_eq_true hr0, Bool.and_true]

/-! ### The requests -/

/-- Both results of the divider, by zero and otherwise. -/
theorem divcore_eq [W.AtLeastTwo] (a b : BitVec W) :
    divcore a b =
      if b = 0 then (if 0 ≤ a.toInt then maxWord W else minWord W, zeroWord W)
      else (BitVec.ofInt W (a.toInt.tdiv b.toInt), BitVec.ofInt W (a.toInt - a.toInt.tdiv b.toInt * b.toInt)) := by
  by_cases hb : b = 0
  · have hsign : a.msb = true ↔ ¬ 0 ≤ a.toInt := by rw [BitVec.msb_eq_toInt, decide_eq_true_iff, not_le]
    have hzero : divcore a b = _ := (congrArg (divcore a) hb).trans (divcore_zeroWord a)
    rw [hzero, if_pos hb]
    simp only [hsign, ite_not]
  · have hzero : b ≠ zeroWord W := hb
    rw [divcore_eq_sdiv_srem a hzero, sdiv_eq_ofInt, srem_eq_ofInt, if_neg hb]

theorem maxWord_reference : maxWord Config.W = 0x7FFFFFFF := by decide

theorem minWord_reference : minWord Config.W = 0x80000000 := by decide

/-- With both destinations in the file and different, each holds its result after the two writes. -/
theorem wroteTwoBuffers_of_writes (s : State) {rd rd2 : Index} (hrd : rd.toNat < Config.reference.NBUF)
    (hrd2 : rd2.toNat < Config.reference.NBUF) (hne : rd ≠ rd2) (q m : Word) :
    WroteTwoBuffers s { s with block := (s.block.write rd.toNat q).write rd2.toNat m, hpc := s.hpc + 1 } rd rd2 q m := by
  have hne' : rd2.toNat ≠ rd.toNat := fun h => hne (BitVec.eq_of_toNat_eq h.symm)
  refine ⟨?_, Block.read_write_self _ hrd2 m, fun j hj hj2 => ?_, rfl, rfl, rfl, rfl, rfl, rfl⟩
  · exact (Block.read_write_ne _ hne' m).trans (s.block.read_write_self hrd q)
  · exact (Block.read_write_ne _ hj2.symm m).trans (s.block.read_write_ne hj.symm q)

/-- A well-formed request of format D whose sources hold words writes both of the unit's results for them. -/
theorem perform_twoResults_writes {rd rd2 rs1 rs2 : Index} {a b : Word} {s : State} (f : Word → Word → Word × Word)
    (hwf : Instr.WellFormed (.divrem rd rd2 rs1 rs2)) (hf : s.block.fault = none) (ha : s.block.read rs1.toNat = some a)
    (hb : s.block.read rs2.toNat = some b) :
    ∃ t, s.perform (.divrem rd rd2 rs1 rs2) (Block.twoResults rd rd2 rs1 rs2 f) = .next t ∧
      WroteTwoBuffers s t rd rd2 (f a b).1 (f a b).2 := by
  have hk := (Instr.operandCause_eq_none_iff Config.reference _).mpr hwf
  have hbody := Block.twoResults_eq_some (rd := rd) (rd2 := rd2) (f := f).mpr ⟨a, b, ha, hb, rfl⟩
  have hne : rd ≠ rd2 := by
    simp only [Instr.WellFormed, Instr.wf, Bool.and_eq_true, bne_iff_ne] at hwf
    exact hwf.2
  exact ⟨_, ForInstance.State.perform_done hf hk hbody, wroteTwoBuffers_of_writes s
    (index_lt_of_wellFormed hwf (.head _)) (index_lt_of_wellFormed hwf (List.mem_of_getLast? rfl)) hne _ _⟩

/-- Settles O43: the words written are the two results of `divcore`. -/
theorem divremWritesQuotientAndRemainder : Obligations.DivremWritesQuotientAndRemainder := by
  intro rd rd2 rs1 rs2 a b s hwf hf ha hb
  have := Config.reference.atLeastTwo
  obtain ⟨t, ht, hwrote⟩ := perform_twoResults_writes divcore hwf hf ha hb
  rw [divcore_eq, maxWord_reference, minWord_reference] at hwrote
  refine ⟨spells_of_wellFormed hwf, t, ht, ?_⟩
  split_ifs at hwrote ⊢ <;> exact hwrote

/-- Settles O44: `div` writes the first and `rem` the second result of `divcore`. -/
theorem divAndRemWriteOneOfTheTwo : Obligations.DivAndRemWriteOneOfTheTwo := by
  intro rd rs1 rs2 a b s hwf hf ha hb
  have := Config.reference.atLeastTwo
  have hrem : Instr.WellFormed (.rem rd rs1 rs2) := hwf
  obtain ⟨t, ht, hdivWrote⟩ := perform_binary_writes coreDiv hwf (.head _) hf ha hb
  obtain ⟨u, hu, hremWrote⟩ := perform_binary_writes coreRem hrem (.head _) hf ha hb
  rw [coreDiv, divcore_eq, maxWord_reference, minWord_reference] at hdivWrote
  rw [coreRem, divcore_eq, maxWord_reference, minWord_reference] at hremWrote
  refine ⟨⟨spells_of_wellFormed hwf, t, ht, ?_⟩, spells_of_wellFormed hrem, u, hu, ?_⟩
  · split_ifs at hdivWrote ⊢ <;> exact hdivWrote
  · split_ifs at hremWrote ⊢ <;> exact hremWrote

end Sys2Proof.Machine

/-!
The port view of the core (30_encoding.md R73).
-/

namespace Sys2Proof.Machine

variable {W : Nat}

/-- Under an OP of the opcode map the ports are driven with the core's result. -/
theorem portView_of_opcodeMap [W.AtLeastTwo] (n : Nat) {p : PortsIn W} {f : Format} {i : Instr}
    (h : opcodeMap p.opsel.toNat 0 0 0 0 p.cnt = some (f, i)) : portView n p = drive n (coreResult i p.a p.b) := by
  rw [portView, h]

/-- Settles O60: each kind of result is driven on the ports that carry it. -/
theorem portsCarryTheCoreResult : Obligations.PortsCarryTheCoreResult := by
  intro W n _ a b cnt op f i h
  have hview : portView n ⟨op, a, b, cnt⟩ = drive n (coreResult i a b) := portView_of_opcodeMap n h
  rw [hview]
  refine ⟨fun p hp => ?_, fun y hy => ?_, fun q m hqm => ?_⟩
  · rw [hp, drive]
  · rw [hy, drive]
  · rw [hqm, drive]
    exact ⟨rfl, rfl⟩

end Sys2Proof.Machine
